-- ==== Sys2Proof/Word.lean ====
section
/-! DEFINITION. The number domain, the byte, and the fixed-length vector (spec/00_scope.md R14, R17, R19).
Mark: DESIGN CHOICE (log entry 1): the number domain is the spec's reference domain, the exact rationals. -/

namespace Sys2Proof

/-- The number domain `Num` of R14 (the library has a `Num` of its own, hence the name): the rational numbers with exact arithmetic. -/
abbrev Scalar := Rat

/-- A byte of R17, an integer 0..255. -/
abbrev Byte := BitVec 8

/-- The frame terminator value `TERM = 255` (R9). -/
abbrev terminator : Byte := 255

/-- A vector of length `n`, indexed 0..n-1 (R19). The length travels with the data, so that a shape mismatch
cannot be expressed in an installed configuration (R30, R125). -/
structure Vec (α : Type) (n : Nat) where
  toList : List α
  length_toList : toList.length = n
deriving DecidableEq, Repr

namespace Vec

/-- Element `i` of a vector (R19). -/
def get {α : Type} {n : Nat} (v : Vec α n) (i : Fin n) : α :=
  v.toList[i.val]'(by rw [v.length_toList]; exact i.isLt)

/-- Lane by lane application: lane `i` of the result depends on lane `i` alone. -/
def map {α β : Type} {n : Nat} (f : α → β) (v : Vec α n) : Vec β n :=
  ⟨v.toList.map f, by rw [List.length_map, v.length_toList]⟩

/-- A list of the right length is a vector; any other list is a shape mismatch (R125). -/
def ofList? {α : Type} (n : Nat) (l : List α) : Option (Vec α n) :=
  if h : l.length = n then some ⟨l, h⟩ else none

end Vec

end Sys2Proof
end

