-- ==== Sys2Proof/Syntax.lean ====
section
/-! DEFINITION. The operations of the block (spec/30_encoding.md R56, R60, R61): one constructor for each row of
spec/opcode_table.json, and the two things an operation is selected by: a frame event's payload, or a position in the fixed schedule. -/

namespace Sys2Proof

/-- The operands of a frame in format F6 (R56): five magnitude bytes, five negate bits, three ignored bits.
The names are those of R56's table. -/
structure Frame where
  surgeMag : Byte
  swayMag  : Byte
  pitchMag : Byte
  yawMag   : Byte
  heaveMag : Byte
  negSurge : Bool
  negSway  : Bool
  negPitch : Bool
  negYaw   : Bool
  negHeave : Bool
  /-- Bits 7:5 of byte 5: carried by the frame, read by no operation (R58). -/
  ign      : BitVec 3
deriving DecidableEq, Repr

/-- The operation map of R61. -/
inductive Instr
  /-- FRAME.OK (R108). -/
  | frameOk (f : Frame)
  /-- FRAME.INCOMPLETE (R109): `n` is the payload's length, the one thing of the payload that is looked at. -/
  | frameIncomplete (n : Nat)
  /-- FRAME.MALFORMED (R110): `off` is the least offset in 0..5 whose byte is 255. -/
  | frameMalformed (off : Nat)
  /-- DECODE (R70), position 0 of the schedule. -/
  | decode
  /-- MIXH (R87), position 1. -/
  | mixh
  /-- MIXV (R88), position 2. -/
  | mixv
  /-- SATH (R101), position 3. -/
  | sath
  /-- SATV (R102), position 4. -/
  | satv
  /-- EMIT (R112), position 5. -/
  | emit
deriving DecidableEq, Repr

/-- What selects an operation: a frame event with its payload (R40, R55), or a number of the fixed schedule (R61).
Mark: DESIGN CHOICE (log entry 6): a schedule number reaches the block on no port of the hardware; it is here so that every row of the table can be run by a step. -/
inductive Code
  /-- Formats F6 and F6 (short). -/
  | frame (payload : List Byte)
  /-- Format SCHED: the 3-bit `step` number. -/
  | sched (position : BitVec 3)
deriving DecidableEq, Repr

end Sys2Proof
end

