-- ==== Sys2Proof/WellFormed.lean ====
section
/-! DEFINITION. Which terms of `Instr` an encoding can give: the ranges of spec/30_encoding.md R57, R58, R60. -/

namespace Sys2Proof

/-- No magnitude is 255 (R57), and the sign byte is not 255, that is, not all of its eight bits are set (R58). -/
def Frame.wf (f : Frame) : Bool :=
  f.surgeMag != terminator && f.swayMag != terminator && f.pitchMag != terminator && f.yawMag != terminator && f.heaveMag != terminator &&
  !(f.negSurge && f.negSway && f.negPitch && f.negYaw && f.negHeave && f.ign == 7)

/-- A short payload has fewer than 6 bytes; an offending offset is in 0..5 (R60). -/
def Instr.wf : Instr → Bool
  | .frameOk f => f.wf
  | .frameIncomplete n => decide (n < 6)
  | .frameMalformed off => decide (off < 6)
  | .decode => true
  | .mixh => true
  | .mixv => true
  | .sath => true
  | .satv => true
  | .emit => true

end Sys2Proof
end

