-- ==== Sys2Proof/Decode.lean ====
section
/-! DEFINITION. Classification and field extraction of a frame event (spec/30_encoding.md R56, R60), the schedule numbers
(R61), and the encoder. Decoding is total on any payload; only the two schedule numbers that name no operation are rejected, by name. -/

namespace Sys2Proof

/-- Bit `k` of a byte, `b[k]`, of weight 2^k (R17). -/
def bitOf (b : Byte) (k : Nat) : Bool := b.getLsbD k

/-- `FRAME_LEN = 6` (R9). -/
def frameLen : Nat := 6

/-- The five magnitude bytes in offset order and the sign byte, taken apart (R56). -/
def Frame.ofBytes (b0 b1 b2 b3 b4 b5 : Byte) : Frame where
  surgeMag := b0
  swayMag  := b1
  pitchMag := b2
  yawMag   := b3
  heaveMag := b4
  negSurge := bitOf b5 0
  negSway  := bitOf b5 1
  negPitch := bitOf b5 2
  negYaw   := bitOf b5 3
  negHeave := bitOf b5 4
  ign      := b5.extractLsb' 5 3

/-- The sign byte: bits 0 to 4 the negate bits of surge, sway, pitch, yaw, heave, bits 7:5 `IGN` (R56). -/
def Frame.signByte (f : Frame) : Byte :=
  f.ign ++ BitVec.ofBool f.negHeave ++ BitVec.ofBool f.negYaw ++ BitVec.ofBool f.negPitch
    ++ BitVec.ofBool f.negSway ++ BitVec.ofBool f.negSurge

/-- The six payload bytes in offset order (R43, R56). -/
def Frame.bytes (f : Frame) : List Byte :=
  [f.surgeMag, f.swayMag, f.pitchMag, f.yawMag, f.heaveMag, f.signByte]

/-- The least offset whose byte is 255, if there is one (R60 second arm, R127). -/
def firstTerm : List Byte → Option Nat
  | [] => none
  | b :: bs => if b = terminator then some 0 else (firstTerm bs).map (· + 1)

/-- Rule R60 on a payload: the length first, then the first six bytes; bytes at offset 6 and above are not looked at (R42). -/
def decodeFrame (p : List Byte) : Instr :=
  match p with
  | b0 :: b1 :: b2 :: b3 :: b4 :: b5 :: _ =>
    match firstTerm [b0, b1, b2, b3, b4, b5] with
    | some off => .frameMalformed off
    | none => .frameOk (Frame.ofBytes b0 b1 b2 b3 b4 b5)
  | short => .frameIncomplete short.length

/-- The schedule numbers of R61; 6 and 7 name no operation. -/
def decodeSched (k : BitVec 3) : Option Instr :=
  match k.toNat with
  | 0 => some .decode
  | 1 => some .mixh
  | 2 => some .mixv
  | 3 => some .sath
  | 4 => some .satv
  | 5 => some .emit
  | _ => none

/-- Why a code is rejected. -/
inductive DecodeError
  /-- A schedule number that names no operation: 6 or 7 (R61). -/
  | reservedStep (k : BitVec 3)
deriving DecidableEq, Repr

/-- The decoder. -/
def decode : Code → Except DecodeError Instr
  | .frame p => .ok (decodeFrame p)
  | .sched k =>
    match decodeSched k with
    | some i => .ok i
    | none => .error (.reservedStep k)

/-- The encoder, from the same tables. FRAME.INCOMPLETE is encoded by a payload of `n` zero bytes and FRAME.MALFORMED
by zeros with 255 at its offset: any payload of the class will do, since no other byte of it is looked at (R109, R60). Log entry 9. -/
def encode : Instr → Code
  | .frameOk f => .frame f.bytes
  | .frameIncomplete n => .frame (List.replicate n 0)
  | .frameMalformed off => .frame (List.replicate off 0 ++ terminator :: List.replicate (5 - off) 0)
  | .decode => .sched 0
  | .mixh => .sched 1
  | .mixv => .sched 2
  | .sath => .sched 3
  | .satv => .sched 4
  | .emit => .sched 5

/-- The word `W` of R56 for a payload: offset `k` in bits 8k+7 : 8k. -/
def wordOfBytes : List Byte → Nat
  | [] => 0
  | b :: bs => b.toNat + 256 * wordOfBytes bs

/-- The first `n` bytes of a word numbered as R56 numbers it. -/
def bytesOfWord : Nat → Nat → List Byte
  | 0, _ => []
  | n + 1, w => BitVec.ofNat 8 w :: bytesOfWord n (w / 256)

/-- A table word as the code it stands for. A row of up to one byte is of format SCHED, whose 3 bits are the low ones
(its opcode-table mask is 7); a wider row is a frame of `nbits / 8` payload bytes; no bits at all is the empty payload. Log entry 9. -/
def codeOfTableWord (nbits w : Nat) : Code :=
  if nbits = 0 then .frame []
  else if nbits ≤ 8 then .sched (BitVec.ofNat 3 w)
  else .frame (bytesOfWord (nbits / 8) w)

/-- The instruction the decoder reads from a word of spec/opcode_table.json. -/
def decodeTableWord (nbits w : Nat) : Option Instr :=
  match decode (codeOfTableWord nbits w) with
  | .ok i => some i
  | .error _ => none

end Sys2Proof
end

