-- ==== Sys2Proof/Config.lean ====
section
/-! DEFINITION. The configuration record `CFG` (spec/10_state.md R29) and the values of the documented vehicle that
no document gives (spec/91_not_in_source.md N1, N2, N3): opaque constants, so that nothing can be proved of a particular value. -/

namespace Sys2Proof

/-- "A single positive scalar" (R13, R126). A limit carries the proof that it is positive, so that `sat` has no other limit to
be applied to and its division is by `M > L > 0` alone (R105 (g), R124). -/
abbrev Limit := { l : Scalar // 0 < l }

/-- The configuration of R29, in the shapes R29 fixes. -/
structure Cfg where
  /-- `MH`, 4 rows by 3 columns (R11): row `i` is horizontal channel `i`; the columns multiply Fx, Fy, Tau. -/
  mh     : Vec (Vec Scalar 3) 4
  /-- `MV`, 2 rows by 2 columns (R12): row `i` is vertical channel `i`; the columns multiply Fz, Tp. -/
  mv     : Vec (Vec Scalar 2) 2
  /-- `LIM_H` (R13). -/
  limH   : Limit
  /-- `LIM_V` (R13). -/
  limV   : Limit
  /-- The five decoder targets (R10, R82): five separate constants. -/
  tSurge : Scalar
  tSway  : Scalar
  tYaw   : Scalar
  tPitch : Scalar
  tHeave : Scalar
deriving DecidableEq, Repr

/-- What the host supplies at start-up (R145 (1)), before validation: lists may have any shape and the limits any value, so that
the checks of R125 and R126 are checks and not a matter of types. -/
structure RawCfg where
  mh     : List (List Scalar)
  mv     : List (List Scalar)
  limH   : Scalar
  limV   : Scalar
  tSurge : Scalar
  tSway  : Scalar
  tYaw   : Scalar
  tPitch : Scalar
  tHeave : Scalar
deriving DecidableEq, Repr

namespace Config

/-- `MH_TAU[i]`, column 2 of the documented vehicle's horizontal matrix: OPEN (R11, N1). Log entry 7. -/
opaque mhTau : Nat → Scalar

/-- `MV[i][j]` of the documented vehicle: OPEN (R12, N2). Log entry 7. -/
opaque mv : Nat → Nat → Scalar

/-- `LIM_V` of the documented vehicle is OPEN but positive (R13, N3): every positive rational is `(a + 1) / (b + 1)`
for some naturals `a` and `b`, and these two are the free ones. Log entry 7. -/
opaque limVNumerator : Nat

/-- See `limVNumerator`. -/
opaque limVDenominator : Nat

end Config

end Sys2Proof
end

