-- ==== Sys2Proof/Machine/Vehicle.lean ====
section
/-! DEFINITION. The values of the documented vehicle (spec/00_scope.md R10, R11, R13) and the two protocol constants
that enter a formula. Mark: DESIGN CHOICE (log entry 7): this record is the one in `State.reset`; its open entries are Config's opaque constants. -/

namespace Sys2Proof.Machine

/-- `MAG_MAX = 254`, the rescaling divisor (R9, R73). -/
def magMax : Scalar := 254

/-- The horizontal matrix: columns 0 and 1 as R11 recovers them, column 2 open. -/
def vehicleMh : Vec (Vec Scalar 3) 4 :=
  ⟨[⟨[1 / 4, 1 / 4, Config.mhTau 0], rfl⟩,
    ⟨[1 / 4, -1 / 4, Config.mhTau 1], rfl⟩,
    ⟨[-1 / 4, 1 / 4, Config.mhTau 2], rfl⟩,
    ⟨[-1 / 4, -1 / 4, Config.mhTau 3], rfl⟩], rfl⟩

/-- The vertical matrix: all four coefficients open (R12). -/
def vehicleMv : Vec (Vec Scalar 2) 2 :=
  ⟨[⟨[Config.mv 0 0, Config.mv 0 1], rfl⟩,
    ⟨[Config.mv 1 0, Config.mv 1 1], rfl⟩], rfl⟩

/-- The vertical limit: open, positive (R13). -/
def vehicleLimV : Limit :=
  ⟨((Config.limVNumerator + 1 : Nat) : Scalar) / ((Config.limVDenominator + 1 : Nat) : Scalar), by positivity⟩

/-- The documented vehicle's configuration (R10 to R13; spec/90_conflicts.md C1 and C2 for the targets). -/
def vehicle : Cfg where
  mh     := vehicleMh
  mv     := vehicleMv
  limH   := ⟨255, by norm_num⟩
  limV   := vehicleLimV
  tSurge := 1023
  tSway  := 1023
  tYaw   := 1023
  tPitch := 510
  tHeave := 255

end Sys2Proof.Machine
end

