-- ==== Sys2Proof/Machine/State.lean ====
section
/-! DEFINITION. The state of the block and of its host's side, as plain data (spec/10_state.md R20, R29, R32, R36, R37;
spec/43_cycle_and_output.md R112; spec/70_reset_and_hazards.md R154), and the ways a step can stop. -/

namespace Sys2Proof.Machine

/-- The command register `CMD`, five fields in the order of R20. -/
structure Cmd where
  /-- CMD[0], surge. -/
  fx  : Scalar
  /-- CMD[1], sway. -/
  fy  : Scalar
  /-- CMD[2], yaw. -/
  tau : Scalar
  /-- CMD[3], heave. -/
  fz  : Scalar
  /-- CMD[4], pitch. -/
  tp  : Scalar
deriving DecidableEq, Repr

/-- The neutral command: the reset value of `CMD` (R22). -/
def Cmd.zero : Cmd := ⟨0, 0, 0, 0, 0⟩

/-- The class of a frame event as the record reports it (R112, R120). -/
inductive Status
  | ok
  | incomplete
  | malformed
deriving DecidableEq, Repr

/-- The output record of R112. -/
structure Out where
  status : Status
  /-- The payload length for INCOMPLETE, the least offending offset for MALFORMED, none for OK. -/
  info   : Option Nat
  h      : Vec Scalar 4
  v      : Vec Scalar 2
deriving DecidableEq, Repr

/-- The values that live inside one cycle (R32), with the payload (R40) and the cycle's status and info (R28, R107).
A value that no micro-operation has produced yet is `none`. Log entry 5. -/
structure CycleValues where
  payload : List Byte
  status  : Status
  info    : Option Nat
  rh      : Option (Vec Scalar 4)
  rv      : Option (Vec Scalar 2)
  h       : Option (Vec Scalar 4)
  v       : Option (Vec Scalar 2)
deriving DecidableEq, Repr

/-- A move of the host, the only source of a step (R111, R138, R140, R145). -/
inductive Input
  /-- A frame event (R55). A schedule number in place of a frame is the model's own move (log entry 6). -/
  | event (c : Code)
  /-- The host supplies a configuration (R145 (1)). -/
  | install (r : RawCfg)
  /-- The reset event (R140). -/
  | reset
deriving DecidableEq, Repr

/-- The state. `cmd` is the block's only register (R20). `cfg` is the configuration, `none` in the unconfigured phase
(R130; log entry 4). `cyc` is `none` between cycles (R36; log entry 5). `inputs` (log entry 2) and `records` (log entry 3) are
the host's: the moves still to be presented and the records handed over since reset, oldest first (R154). -/
structure State where
  cmd     : Cmd
  cfg     : Option Cfg
  cyc     : Option CycleValues
  inputs  : List Input
  records : List Out
deriving DecidableEq, Repr

/-- The reset state (R36, R141): `CMD` zero, no cycle, no record, the configuration the one installed at start-up
(R144; log entry 7). No host move is pending (log entry 2). -/
def State.reset : State where
  cmd     := Cmd.zero
  cfg     := some vehicle
  cyc     := none
  inputs  := []
  records := []

/-- The block before any configuration is installed (R130, R145). -/
def State.unconfigured : State where
  cmd     := Cmd.zero
  cfg     := none
  cyc     := none
  inputs  := []
  records := []

/-- What is wrong with a configuration the host supplies (R120: the info of ConfigError is "which field"). -/
inductive ConfigError
  /-- `MH` is not 4 by 3 (R125). -/
  | shapeMh
  /-- `MV` is not 2 by 2 (R125). -/
  | shapeMv
  /-- `LIM_H` is not positive (R126). -/
  | limitH
  /-- `LIM_V` is not positive (R126). -/
  | limitV
deriving DecidableEq, Repr

/-- The faults: what the spec itself says stops the block. -/
inductive Fault
  /-- Raised by the installation of a configuration that validation refuses: a "fatal configuration error", no cycle runs
  (R125, R126, R145). Safe: the spec says the block stops here. Log entry 12. -/
  | configError (e : ConfigError)
deriving DecidableEq, Repr

/-- The values of R32 that a micro-operation can find missing. -/
inductive CycleSlot
  | rh
  | rv
  | h
  | v
deriving DecidableEq, Repr

/-- The refusals: situations to which the spec gives no effect. All are safe: the model stops and claims nothing. -/
inductive Refusal
  /-- Raised by the dispatcher for an instruction that has no meaning yet; no arm raises it. Safe. -/
  | notModelled (mnemonic : String)
  /-- Raised by every operation when no configuration is installed: "No cycle is defined for a block without a valid
  configuration" (R145). Safe. Log entry 11. -/
  | unconfigured
  /-- Raised by the three frame operations when a cycle is in progress: what becomes of such a frame "is not specified" (R148).
  Safe. Log entry 10. -/
  | frameDuringCycle
  /-- Raised by the six micro-operations when no cycle is in progress: they run only inside a cycle (R107, R36). Safe. Log entry 14. -/
  | outsideCycle
  /-- Raised by SATH, SATV and EMIT when the value they read does not exist yet in this cycle (R32, R101, R102, R112).
  Safe. Log entry 14. -/
  | valueAbsent (x : CycleSlot)
  /-- Raised by DECODE when it would read at an offset the payload does not have: the read is "defined only for" offsets
  below the length (R41). Safe. Log entry 14. -/
  | payloadOffset (off : Nat)
  /-- Raised by the step on a schedule number that names no operation, 6 or 7 (R61). Safe. Log entry 6. -/
  | reservedStep (k : BitVec 3)
  /-- Raised by a second installation: a run in which the configuration changes "is outside the spec" (R146, R51).
  Safe. Log entry 13. -/
  | configChange
deriving DecidableEq, Repr

end Sys2Proof.Machine
end

