-- ==== Sys2Proof/Machine/Flags.lean ====
section
/-! DEFINITION. The block has no flag register (spec/10_state.md R28). What stands in its place: the status codes of the
output record (spec/60_exceptions.md R120) and the one data-dependent test inside a cycle (spec/42_saturation.md R97). -/

namespace Sys2Proof.Machine

/-- The two-bit status codes of R120: OK 0, INCOMPLETE 1, MALFORMED 2; 3 is never produced. -/
def Status.code : Status → BitVec 2
  | .ok => 0
  | .incomplete => 1
  | .malformed => 2

/-- "exceeds the limit": the strict test `M > L` of R97. -/
abbrev exceeds (m l : Scalar) : Prop := l < m

end Sys2Proof.Machine
end

