-- ==== Sys2Proof/Machine/Arith.lean ====
section
/-! DEFINITION. The two vector operations of the core: the fixed-size matrix-vector product (spec/41_mixer.md R85) and
the max-norm saturation (spec/42_saturation.md R95 to R99), with the mixers and scalers as functions of R107. -/

namespace Sys2Proof.Machine

/-- Left-to-right sum starting from the first product, no separate zero accumulator (R85). -/
def sumLeft : List Scalar → Scalar
  | [] => 0
  | x :: xs => xs.foldl (· + ·) x

/-- One lane of R85: each product on its own, then the left-to-right sum. -/
def dot (row x : List Scalar) : Scalar := sumLeft (List.zipWith (· * ·) row x)

/-- `matvec(M, x)` (R85). -/
def matvec {n k : Nat} (m : Vec (Vec Scalar k) n) (x : Vec Scalar k) : Vec Scalar n :=
  m.map fun row => dot row.toList x.toList

/-- The max-norm `M` of a group (R96). -/
def maxAbs (f : List Scalar) : Scalar :=
  match f.map (fun x => |x|) with
  | [] => 0
  | a :: as => as.foldl max a

/-- `sat(F, L)` (R95): if the maximum exceeds the limit, `k = L / M` once and then one multiplication by `k` a lane (R98);
otherwise the identical values. The limit is positive by its type: `sat` is specified for `L > 0` only (R105 (g)). -/
def sat {n : Nat} (f : Vec Scalar n) (l : Limit) : Vec Scalar n :=
  if exceeds (maxAbs f.toList) l.val then
    let k := l.val / maxAbs f.toList
    f.map (· * k)
  else f

/-- The horizontal mixer's input (Fx, Fy, Tau) (R87). -/
def Cmd.horizontal (m : Cmd) : Vec Scalar 3 := ⟨[m.fx, m.fy, m.tau], rfl⟩

/-- The vertical mixer's input (Fz, Tp) (R88). -/
def Cmd.vertical (m : Cmd) : Vec Scalar 2 := ⟨[m.fz, m.tp], rfl⟩

/-- MIXH as a function (R87). -/
def mixH (c : Cfg) (m : Cmd) : Vec Scalar 4 := matvec c.mh m.horizontal

/-- MIXV as a function (R88). -/
def mixV (c : Cfg) (m : Cmd) : Vec Scalar 2 := matvec c.mv m.vertical

/-- SATH as a function (R101). -/
def satH (c : Cfg) (rh : Vec Scalar 4) : Vec Scalar 4 := sat rh c.limH

/-- SATV as a function (R102). -/
def satV (c : Cfg) (rv : Vec Scalar 2) : Vec Scalar 2 := sat rv c.limV

/-- `thrust(CFG, c)` (R107): the pure mapping from a command to the six thruster values (R4). -/
def thrust (c : Cfg) (m : Cmd) : Vec Scalar 4 × Vec Scalar 2 := (satH c (mixH c m), satV c (mixV c m))

end Sys2Proof.Machine
end

