-- ==== Sys2Proof/Machine/Operands.lean ====
section
/-! DEFINITION. Operand assembly (spec/30_encoding.md R65; spec/40_decode.md R70, R73 to R75; spec/20_memory.md R41, R43). -/

namespace Sys2Proof.Machine

/-- `num(b)`: the byte as a non-negative number, zero extension (R17). -/
def num (b : Byte) : Scalar := (b.toNat : Scalar)

/-- `MemRead(off, 1)` on the payload (R41): the byte at an offset below the length, and nothing elsewhere. -/
def memRead (p : List Byte) (off : Nat) : Option Byte := p[off]?

/-- `scale(b, T) = (num(b) * T) / 254` (R73): product first, division second, exact. -/
def scale (b : Byte) (t : Scalar) : Scalar := (num b * t) / magMax

/-- `apply_sign(m, neg)` (R74). -/
def applySign (m : Scalar) (neg : Bool) : Scalar := if neg then -m else m

/-- `signed(b, neg, T)` (R70): the sign is applied to the already scaled magnitude. -/
def signedOperand (b : Byte) (neg : Bool) (t : Scalar) : Scalar := applySign (scale b t) neg

/-- DECODE's new command (R70, the field map of R75), or `none` where the payload has no byte at one of the offsets 0..5.
Offset 2 feeds Tp, offset 3 Tau, offset 4 Fz (R43). -/
def decodeCmd (c : Cfg) (p : List Byte) : Option Cmd :=
  match memRead p 5, memRead p 0, memRead p 1, memRead p 2, memRead p 3, memRead p 4 with
  | some s, some surge, some sway, some pitch, some yaw, some heave => some
      { fx  := signedOperand surge (bitOf s 0) c.tSurge
        fy  := signedOperand sway (bitOf s 1) c.tSway
        tau := signedOperand yaw (bitOf s 3) c.tYaw
        fz  := signedOperand heave (bitOf s 4) c.tHeave
        tp  := signedOperand pitch (bitOf s 2) c.tPitch }
  | _, _, _, _, _, _ => none

end Sys2Proof.Machine
end

