-- ==== Sys2Proof/Machine/Ops.lean ====
section
/-! DEFINITION. The shared operations on State: starting and ending a cycle, raising a condition (spec/60_exceptions.md
R121, R123, R125, R126, R128), the six micro-operations and their fixed schedule (spec/43_cycle_and_output.md R107), and
the host's two other moves, installing a configuration and reset (spec/70_reset_and_hazards.md R140, R145). -/

namespace Sys2Proof.Machine

/-- Run `f` on the next state; a fault or a refusal ends the sequence. -/
def andThen (o : Host.Outcome State Fault Refusal) (f : State → Host.Outcome State Fault Refusal) :
    Host.Outcome State Fault Refusal :=
  match o with
  | .next s => f s
  | .fault r => .fault r
  | .refused r => .refused r

/-- The fresh in-cycle values of a cycle that has just been classified: nothing computed yet. -/
def CycleValues.fresh (st : Status) (info : Option Nat) (payload : List Byte) : CycleValues where
  payload := payload
  status  := st
  info    := info
  rh      := none
  rv      := none
  h       := none
  v       := none

/-- Start the cycle of a frame event: the block is configured (R145) and idle (R148). -/
def beginCycle (st : Status) (info : Option Nat) (payload : List Byte) (s : State) : Host.Outcome State Fault Refusal :=
  match s.cfg, s.cyc with
  | none, _ => .refused .unconfigured
  | some _, some _ => .refused .frameDuringCycle
  | some _, none => .next { s with cyc := some (CycleValues.fresh st info payload) }

/-- `raise Incomplete(n)` (R121, R128): no state saved, no mode changed, no control transferred; the cycle starts with
status INCOMPLETE and info `n`, and with no payload byte to read (R109). -/
def raiseIncomplete (n : Nat) (s : State) : Host.Outcome State Fault Refusal :=
  beginCycle .incomplete (some n) [] s

/-- `raise Malformed(off)` (R123, R128): the same effect with status MALFORMED and info `off`. -/
def raiseMalformed (off : Nat) (s : State) : Host.Outcome State Fault Refusal :=
  beginCycle .malformed (some off) [] s

/-- `raise ConfigError(what)` (R125, R126): the configuration is refused and no cycle runs. -/
def raiseConfigError (e : ConfigError) : Host.Outcome State Fault Refusal := .fault (.configError e)

/-- The end of a cycle, which is also the end of its condition (R112, R129): the record goes to the adapter and no
in-cycle value survives (R32, R33). -/
def endCycle (o : Out) (s : State) : State := { s with cyc := none, records := s.records ++ [o] }

/-- A micro-operation runs in a configured block, inside a cycle. -/
def inCycle (s : State) (f : Cfg → CycleValues → Host.Outcome State Fault Refusal) : Host.Outcome State Fault Refusal :=
  match s.cfg, s.cyc with
  | none, _ => .refused .unconfigured
  | some _, none => .refused .outsideCycle
  | some c, some y => f c y

/-- DECODE (R70): under status OK, one atomic write of all five fields (R21, R24). In a cycle that is not OK it is not run
and `CMD` is not written: the cycle skips it and runs on (R81, R128; log entry 15). -/
def opDecode (s : State) : Host.Outcome State Fault Refusal :=
  inCycle s fun c y =>
    match y.status with
    | .ok =>
      match decodeCmd c y.payload with
      | some m => .next { s with cmd := m }
      | none => .refused (.payloadOffset y.payload.length)
    | .incomplete => .next s
    | .malformed => .next s

/-- MIXH (R87): `RH = matvec(MH, (Fx, Fy, Tau))`. -/
def opMixh (s : State) : Host.Outcome State Fault Refusal :=
  inCycle s fun c y => .next { s with cyc := some { y with rh := some (mixH c s.cmd) } }

/-- MIXV (R88): `RV = matvec(MV, (Fz, Tp))`. -/
def opMixv (s : State) : Host.Outcome State Fault Refusal :=
  inCycle s fun c y => .next { s with cyc := some { y with rv := some (mixV c s.cmd) } }

/-- SATH (R101): `H = sat(RH, LIM_H)`. -/
def opSath (s : State) : Host.Outcome State Fault Refusal :=
  inCycle s fun c y =>
    match y.rh with
    | some rh => .next { s with cyc := some { y with h := some (satH c rh) } }
    | none => .refused (.valueAbsent .rh)

/-- SATV (R102): `V = sat(RV, LIM_V)`. -/
def opSatv (s : State) : Host.Outcome State Fault Refusal :=
  inCycle s fun c y =>
    match y.rv with
    | some rv => .next { s with cyc := some { y with v := some (satV c rv) } }
    | none => .refused (.valueAbsent .rv)

/-- EMIT (R112): `emit Out(st, info, H, V)`, and the cycle ends. -/
def opEmit (s : State) : Host.Outcome State Fault Refusal :=
  inCycle s fun _ y =>
    match y.h, y.v with
    | some h, some v => .next (endCycle ⟨y.status, y.info, h, v⟩ s)
    | none, _ => .refused (.valueAbsent .h)
    | some _, none => .refused (.valueAbsent .v)

/-- The fixed schedule of R107: DECODE, MIXH, MIXV, SATH, SATV, EMIT. -/
def runSchedule (s : State) : Host.Outcome State Fault Refusal :=
  andThen (opDecode s) fun s =>
  andThen (opMixh s) fun s =>
  andThen (opMixv s) fun s =>
  andThen (opSath s) fun s =>
  andThen (opSatv s) opEmit

/-- The validation of R145 (2): shapes first (R125), then limits strictly positive (R126); the first check that fails is
the one named (log entry 12). -/
def validate (r : RawCfg) : Except ConfigError Cfg :=
  match (r.mh.mapM (Vec.ofList? 3)).bind (Vec.ofList? 4) with
  | none => .error .shapeMh
  | some mh =>
    match (r.mv.mapM (Vec.ofList? 2)).bind (Vec.ofList? 2) with
    | none => .error .shapeMv
    | some mv =>
      if hh : 0 < r.limH then
        if hv : 0 < r.limV then .ok
          { mh := mh, mv := mv, limH := ⟨r.limH, hh⟩, limV := ⟨r.limV, hv⟩, tSurge := r.tSurge, tSway := r.tSway,
            tYaw := r.tYaw, tPitch := r.tPitch, tHeave := r.tHeave }
        else .error .limitV
      else .error .limitH

/-- The reset event (R140, R141): `CMD` zero, no cycle, no record; the configuration is not touched (R144), nor what the
host has yet to present (log entry 16). -/
def resetEvent (s : State) : State := { s with cmd := Cmd.zero, cyc := none, records := [] }

/-- Start-up (R145): an unconfigured block takes a valid configuration and is then in the reset state; an invalid one is
refused; a configured block takes no other (R146). -/
def installCfg (r : RawCfg) (s : State) : Host.Outcome State Fault Refusal :=
  match s.cfg with
  | some _ => .refused .configChange
  | none =>
    match validate r with
    | .ok c => .next { resetEvent s with cfg := some c }
    | .error e => raiseConfigError e

end Sys2Proof.Machine
end

