-- ==== Sys2Proof/Machine/Decoder.lean ====
section
/-! DEFINITION. The decoder family: DECODE (spec/40_decode.md). -/

namespace Sys2Proof.Machine

/-- DECODE (R70): payload bytes 0..5 and the five targets to all five fields of `CMD`. -/
def execDecode (s : State) : Host.Outcome State Fault Refusal := opDecode s

end Sys2Proof.Machine
end

