-- ==== Sys2Proof/Machine/Frame.lean ====
section
/-! DEFINITION. The frame family: the three operations a frame event selects (spec/43_cycle_and_output.md R107 to R110). -/

namespace Sys2Proof.Machine

/-- FRAME.OK (R108): DECODE, then the two paths on the new command, then EMIT with status OK. -/
def execFrameOk (f : Frame) (s : State) : Host.Outcome State Fault Refusal :=
  andThen (beginCycle .ok none f.bytes s) runSchedule

/-- FRAME.INCOMPLETE (R109, R121): the retained command is mixed, scaled and emitted with status INCOMPLETE. -/
def execFrameIncomplete (n : Nat) (s : State) : Host.Outcome State Fault Refusal :=
  andThen (raiseIncomplete n s) runSchedule

/-- FRAME.MALFORMED (R110, R123): the retained command is mixed, scaled and emitted with status MALFORMED. -/
def execFrameMalformed (off : Nat) (s : State) : Host.Outcome State Fault Refusal :=
  andThen (raiseMalformed off s) runSchedule

end Sys2Proof.Machine
end

