-- ==== Sys2Proof/Machine/Mixer.lean ====
section
/-! DEFINITION. The mixer family: MIXH and MIXV (spec/41_mixer.md). -/

namespace Sys2Proof.Machine

/-- MIXH (R87). -/
def execMixh (s : State) : Host.Outcome State Fault Refusal := opMixh s

/-- MIXV (R88). -/
def execMixv (s : State) : Host.Outcome State Fault Refusal := opMixv s

end Sys2Proof.Machine
end

