-- ==== Sys2Proof/Machine/Output.lean ====
section
/-! DEFINITION. The output family: EMIT, and the interface of the actuator adapter (spec/43_cycle_and_output.md R112, R116). -/

namespace Sys2Proof.Machine

/-- EMIT (R112). -/
def execEmit (s : State) : Host.Outcome State Fault Refusal := opEmit s

/-- The adapter's two direction states; which electrical state is which is the adapter's (R116). -/
inductive Direction
  | nonNegative
  | negative
deriving DecidableEq, Repr

/-- Sign to direction: zero counts as non-negative (R116). Outside the block: interface only (log entry 20). -/
def direction (v : Scalar) : Direction := if 0 ≤ v then .nonNegative else .negative

/-- Magnitude to duty: the absolute value, before any rounding the adapter makes (R116). -/
def duty (v : Scalar) : Scalar := |v|

end Sys2Proof.Machine
end

