-- ==== Sys2Proof/Machine/Saturation.lean ====
section
/-! DEFINITION. The saturation family: SATH and SATV (spec/42_saturation.md). -/

namespace Sys2Proof.Machine

/-- SATH (R101). -/
def execSath (s : State) : Host.Outcome State Fault Refusal := opSath s

/-- SATV (R102). -/
def execSatv (s : State) : Host.Outcome State Fault Refusal := opSatv s

end Sys2Proof.Machine
end

