-- ==== Sys2Proof/Machine/Dispatch.lean ====
section
/-! DEFINITION. One arm per constructor of Instr (spec/opcode_table.json). -/

namespace Sys2Proof.Machine

def exec (i : Instr) (s : State) : Host.Outcome State Fault Refusal :=
  match i with
  | .frameOk f => Sys2Proof.Machine.execFrameOk f s
  | .frameIncomplete n => Sys2Proof.Machine.execFrameIncomplete n s
  | .frameMalformed off => Sys2Proof.Machine.execFrameMalformed off s
  | .decode => Sys2Proof.Machine.execDecode s
  | .mixh => Sys2Proof.Machine.execMixh s
  | .mixv => Sys2Proof.Machine.execMixv s
  | .sath => Sys2Proof.Machine.execSath s
  | .satv => Sys2Proof.Machine.execSatv s
  | .emit => Sys2Proof.Machine.execEmit s

end Sys2Proof.Machine
end

