-- ==== Sys2Proof/Machine/Fetch.lean ====
section
/-! DEFINITION. What the step takes next (spec/43_cycle_and_output.md R111) and how a table word is placed there (log entry 8). -/

namespace Sys2Proof.Machine

/-- The host's next move, taken from its list: the move and the state without it; `none` when the block idles. -/
def takeInput (s : State) : Option (Input × State) :=
  match s.inputs with
  | [] => none
  | x :: rest => some (x, { s with inputs := rest })

/-- The in-cycle values that exist when position `k` of the schedule is reached (R107, R32), in an OK cycle on a payload of six
zero bytes: what the positions before `k` have produced from the command register. -/
def cycleAt (c : Cfg) (m : Cmd) (k : Nat) : CycleValues where
  payload := List.replicate 6 0
  status  := .ok
  info    := none
  rh      := if 1 < k then some (mixH c m) else none
  rv      := if 2 < k then some (mixV c m) else none
  h       := if 3 < k then some (satH c (mixH c m)) else none
  v       := if 4 < k then some (satV c (mixV c m)) else none

/-- `s` ready to take `code` as its next move: configured, and idle for a frame event, or inside a cycle at position `k` for
schedule number `k`. A configuration that is there stays; an unconfigured block gets the documented vehicle's. -/
def placeCode (code : Code) (s : State) : State :=
  let c := s.cfg.getD vehicle
  match code with
  | .frame p => { s with cfg := some c, cyc := none, inputs := .event (.frame p) :: s.inputs }
  | .sched k =>
    { s with cfg := some c, cyc := some (cycleAt c s.cmd k.toNat), inputs := .event (.sched k) :: s.inputs }

end Sys2Proof.Machine
end

