-- ==== Sys2Proof/Machine/Step.lean ====
section
/-! DEFINITION. The step: one host move (spec/43_cycle_and_output.md R107, R111; spec/70_reset_and_hazards.md R140, R145, R150). -/

namespace Sys2Proof.Machine

/-- One step. A frame event is one whole control cycle (R150). With nothing presented the block idles and its state does not
change (R111, R138; log entry 17). -/
def step (s : State) : Host.Outcome State Fault Refusal :=
  match takeInput s with
  | none => .next s
  | some (.event c, t) =>
    match decode c with
    | .ok i => exec i t
    | .error (.reservedStep k) => .refused (.reservedStep k)
  | some (.install r, t) => installCfg r t
  | some (.reset, t) => .next (resetEvent t)

/-- `s` with a table word placed where the step takes its next move (log entry 8). -/
def State.withFetchWord (s : State) (nbits w : Nat) : State := placeCode (codeOfTableWord nbits w) s

end Sys2Proof.Machine
end

