-- ==== Sys2Proof/Machine/Cycle.lean ====
section
/-! DEFINITION. The spec's own step as a pure function of the configuration, the command register and one payload
(spec/43_cycle_and_output.md R107, spec/30_encoding.md R60), written beside the machine and not used by it: statements compare the two. -/

namespace Sys2Proof.Machine

/-- The three classes of R60 with their info. -/
inductive FrameClass
  | ok
  | incomplete (n : Nat)
  | malformed (off : Nat)
deriving DecidableEq, Repr

/-- `classify(p)` of R60, arm by arm. -/
def classify (p : List Byte) : FrameClass :=
  if p.length < 6 then .incomplete p.length
  else
    match (List.range 6).find? (fun k => p[k]? == some terminator) with
    | some off => .malformed off
    | none => .ok

/-- The record of R112 for a command. -/
def outOf (c : Cfg) (m : Cmd) (st : Status) (info : Option Nat) : Out := ⟨st, info, (thrust c m).1, (thrust c m).2⟩

/-- `cycle(CFG, CMD, p)` of R107: the next command and the record. (An OK payload has its six bytes, so the command that
stands in for an unreadable one is never used.) -/
def cycle (c : Cfg) (m : Cmd) (p : List Byte) : Cmd × Out :=
  match classify p with
  | .ok => let m' := (decodeCmd c p).getD m; (m', outOf c m' .ok none)
  | .incomplete n => (m, outOf c m .incomplete (some n))
  | .malformed off => (m, outOf c m .malformed (some off))

/-- A run over a sequence of payloads (R154): the final command and the records in order. -/
def cycles (c : Cfg) (m : Cmd) : List (List Byte) → Cmd × List Out
  | [] => (m, [])
  | p :: ps =>
    let r := cycle c m p
    let q := cycles c r.1 ps
    (q.1, r.2 :: q.2)

end Sys2Proof.Machine
end

