-- ==== Sys2Proof/Safety.lean ====
section
/-! DEFINITION. What every reachable state of the block satisfies (spec/10_state.md R25, R36; spec/43_cycle_and_output.md
R112, R114, R117; spec/60_exceptions.md R120, R126), and what a host that keeps to the spec presents (R148). -/

namespace Sys2Proof

/-- The two frame operations that keep the retained command (R109, R110). -/
def Instr.isRetaining : Instr → Bool
  | .frameOk _ => false
  | .frameIncomplete _ => true
  | .frameMalformed _ => true
  | .decode => false
  | .mixh => false
  | .mixv => false
  | .sath => false
  | .satv => false
  | .emit => false

end Sys2Proof

namespace Sys2Proof.Machine

/-- R25: a field is `±(num(b) * T) / 254` for a byte `b` in 0..254 (zero is the case `b = 0`). -/
def FieldInRange (t x : Scalar) : Prop :=
  ∃ (b : Byte) (neg : Bool), b ≠ terminator ∧ x = signedOperand b neg t

/-- R25, all five fields, each with its own target. -/
structure Cmd.InRange (c : Cfg) (m : Cmd) : Prop where
  fx  : FieldInRange c.tSurge m.fx
  fy  : FieldInRange c.tSway m.fy
  tau : FieldInRange c.tYaw m.tau
  fz  : FieldInRange c.tHeave m.fz
  tp  : FieldInRange c.tPitch m.tp

/-- R117: no value of a record exceeds its group's limit. -/
def Out.Bounded (c : Cfg) (o : Out) : Prop :=
  (∀ x ∈ o.h.toList, |x| ≤ c.limH.val) ∧ (∀ x ∈ o.v.toList, |x| ≤ c.limV.val)

/-- R112, R120: the info that goes with a status. -/
def Out.InfoLegal (o : Out) : Prop :=
  match o.status with
  | .ok => o.info = none
  | .incomplete => ∃ n, o.info = some n ∧ n < 6
  | .malformed => ∃ off, o.info = some off ∧ off < 6

/-- A move that a host of the hardware can make: not a schedule number, which is on no port (R61). -/
def Input.isHost : Input → Bool
  | .event (.frame _) => true
  | .event (.sched _) => false
  | .install _ => true
  | .reset => true

/-- A configured block between cycles: when a frame event may be presented (R145, R148). -/
abbrev State.Ready (s : State) (c : Cfg) : Prop := s.cfg = some c ∧ s.cyc = none

/-- A configured block inside a cycle: when a micro-operation runs (R107). -/
abbrev State.Running (s : State) (c : Cfg) (y : CycleValues) : Prop := s.cfg = some c ∧ s.cyc = some y

/-- The six micro-operations as instructions of their own, in the order of the fixed schedule (R61, R107). -/
def microOperations (s : State) : Host.Outcome State Fault Refusal :=
  andThen (exec .decode s) fun s => andThen (exec .mixh s) fun s => andThen (exec .mixv s) fun s =>
    andThen (exec .sath s) fun s => andThen (exec .satv s) fun s => exec .emit s

/-- The moves of a host that presents a sequence of payloads (R154). -/
def frameInputs (ps : List (List Byte)) : List Input := ps.map fun p => .event (.frame p)

/-- The raw form of a configuration: what a host supplies to get it installed (R145 (1)). -/
def rawOf (c : Cfg) : RawCfg where
  mh     := c.mh.toList.map Vec.toList
  mv     := c.mv.toList.map Vec.toList
  limH   := c.limH.val
  limV   := c.limV.val
  tSurge := c.tSurge
  tSway  := c.tSway
  tYaw   := c.tYaw
  tPitch := c.tPitch
  tHeave := c.tHeave

/-- `a·m + b·n`, field by field: the combination of commands in the linearity law (R89). -/
def Cmd.combine (a b : Scalar) (m n : Cmd) : Cmd :=
  ⟨a * m.fx + b * n.fx, a * m.fy + b * n.fy, a * m.tau + b * n.tau, a * m.fz + b * n.fz, a * m.tp + b * n.tp⟩

/-- `m` is the command of frame `f`: the field map of R75, each value written out from R73 and R74. -/
structure IsCommandOf (c : Cfg) (f : Frame) (m : Cmd) : Prop where
  fx  : m.fx = if f.negSurge then -((f.surgeMag.toNat : Scalar) * c.tSurge / 254) else (f.surgeMag.toNat : Scalar) * c.tSurge / 254
  fy  : m.fy = if f.negSway then -((f.swayMag.toNat : Scalar) * c.tSway / 254) else (f.swayMag.toNat : Scalar) * c.tSway / 254
  tau : m.tau = if f.negYaw then -((f.yawMag.toNat : Scalar) * c.tYaw / 254) else (f.yawMag.toNat : Scalar) * c.tYaw / 254
  fz  : m.fz = if f.negHeave then -((f.heaveMag.toNat : Scalar) * c.tHeave / 254) else (f.heaveMag.toNat : Scalar) * c.tHeave / 254
  tp  : m.tp = if f.negPitch then -((f.pitchMag.toNat : Scalar) * c.tPitch / 254) else (f.pitchMag.toNat : Scalar) * c.tPitch / 254

/-- `rh` is MIXH's raw vector, lane by lane (R87). -/
def IsRawHorizontal (c : Cfg) (m : Cmd) (rh : Vec Scalar 4) : Prop :=
  ∀ i : Fin 4, rh.get i =
    (c.mh.get i).get 0 * m.fx + (c.mh.get i).get 1 * m.fy + (c.mh.get i).get 2 * m.tau

/-- `rv` is MIXV's raw vector, lane by lane (R88). -/
def IsRawVertical (c : Cfg) (m : Cmd) (rv : Vec Scalar 2) : Prop :=
  ∀ i : Fin 2, rv.get i = (c.mv.get i).get 0 * m.fz + (c.mv.get i).get 1 * m.tp

/-- `a` is the max-norm of `f` (R96): an upper bound of the absolute values, and one of them. -/
def IsMaxNorm {n : Nat} (f : Vec Scalar n) (a : Scalar) : Prop :=
  (∀ i, |f.get i| ≤ a) ∧ ∃ i, |f.get i| = a

/-- `g` is `f` scaled to the limit `l` (R95, R97, R98): every lane times `l / a` if the max-norm `a` exceeds `l`, else `f` itself. -/
def IsScaled {n : Nat} (f : Vec Scalar n) (l : Scalar) (g : Vec Scalar n) : Prop :=
  ∃ a, IsMaxNorm f a ∧ (l < a → ∀ i, g.get i = f.get i * (l / a)) ∧ (a ≤ l → g = f)

/-- `h` and `v` are the six values of the command `m` (R107): each group mixed and then scaled to its own limit (R103). -/
def IsThrust (c : Cfg) (m : Cmd) (h : Vec Scalar 4) (v : Vec Scalar 2) : Prop :=
  ∃ rh rv, IsRawHorizontal c m rh ∧ IsRawVertical c m rv ∧ IsScaled rh c.limH.val h ∧ IsScaled rv c.limV.val v

/-- The invariant of a run. -/
structure State.Inv (s : State) : Prop where
  /-- No cycle has run without one, so no record exists (R145). -/
  quietUnconfigured : s.cfg = none → s.records = []
  /-- Before the first record since reset the register is neutral (R141). -/
  quietStart : s.records = [] → s.cmd = Cmd.zero
  /-- No in-cycle value survives its cycle (R32, R150). -/
  idle : s.cyc = none
  /-- R25. -/
  cmdInRange : ∀ c, s.cfg = some c → s.cmd.InRange c
  /-- R117 and R120, for every record since reset. -/
  recordsGood : ∀ c, s.cfg = some c → ∀ o ∈ s.records, o.Bounded c ∧ o.InfoLegal
  /-- The newest record holds the six values of the present command (R107), which is why a frame that is not OK repeats
  them (R114). -/
  lastRecord : ∀ c o, s.cfg = some c → s.records.getLast? = some o → (o.h, o.v) = thrust c s.cmd
  /-- A host that keeps to the spec. -/
  hostMoves : ∀ x ∈ s.inputs, x.isHost = true

end Sys2Proof.Machine
end

