-- ==== Sys2Proof/Certificates/Slice0/Obligations.lean ====
section
/-! DEFINITION. The statements for the provers, from the numbered rules of spec/. A next state written as a record update of
`s` also says the frame: every field that the update does not name is unchanged. -/

open Sys2Proof Sys2Proof.Machine

/-! ### Reset, encoding and the step -/

/-- R141, R22: after reset the command register is zero, no record exists, and no cycle is in progress. -/
def Obligations.ResetIsNeutral : Prop :=
  State.reset.cmd = ⟨0, 0, 0, 0, 0⟩ ∧ State.reset.records = [] ∧ State.reset.cyc = none

/-- The invariant of a run holds at reset (the configuration in the reset state is log entry 7). -/
def Obligations.ResetMeetsRunInvariant : Prop := State.reset.Inv

/-- When the host's next move is an event whose code decodes to `i`, a step is `exec i`, with the move taken off the list. -/
def Obligations.StepRunsDecodedInstruction : Prop :=
  ∀ (s : State) (code : Code) (rest : List Input) (i : Instr),
    s.inputs = .event code :: rest → decode code = .ok i → step s = exec i { s with inputs := rest }

/-- With nothing presented the block idles and its state does not change (R138). -/
def Obligations.IdleStepChangesNothing : Prop :=
  ∀ s : State, s.inputs = [] → step s = .next s

/-- Words written out from R56 (vectors X1, X2, X6, X7 of 95_test_vectors.md) and the schedule numbers of R61 decode to what they
stand for. That a 40-bit word is a payload of five bytes and an 8-bit word a schedule number is log entry 9, since R56 and R66 give a
short payload no word; that a schedule number reaches the decoder is log entry 6. -/
def Obligations.WrittenWordsDecode : Prop :=
  decodeTableWord 48 0x00000000007F =
    some (.frameOk ⟨127, 0, 0, 0, 0, false, false, false, false, false, 0⟩) ∧
  decodeTableWord 48 0x1FFEFEFEFEFE =
    some (.frameOk ⟨254, 254, 254, 254, 254, true, true, true, true, true, 0⟩) ∧
  decodeTableWord 48 0x000000FF00FE = some (.frameMalformed 2) ∧
  decodeTableWord 48 0xFF0909090909 = some (.frameMalformed 5) ∧
  decodeTableWord 40 0x0504030201 = some (.frameIncomplete 5) ∧
  decodeTableWord 8 0 = some .decode ∧ decodeTableWord 8 1 = some .mixh ∧ decodeTableWord 8 2 = some .mixv ∧
  decodeTableWord 8 3 = some .sath ∧ decodeTableWord 8 4 = some .satv ∧ decodeTableWord 8 5 = some .emit ∧
  decodeTableWord 8 6 = none ∧ decodeTableWord 8 7 = none

/-- Decoding the encoding of any well-formed instruction gives that instruction, with every operand at every value. -/
def Obligations.DecodeOfEncodeIsInstruction : Prop :=
  ∀ i : Instr, i.wf = true → decode (encode i) = .ok i

/-- The word W of a frame, numbered as R56 numbers it, decodes to that frame. -/
def Obligations.FrameWordDecodesToFrame : Prop :=
  ∀ f : Frame, f.wf = true → decodeTableWord 48 (wordOfBytes f.bytes) = some (.frameOk f)

/-- Whatever the decoder answers is well-formed (R57, R58, R60). -/
def Obligations.DecodedInstructionIsWellFormed : Prop :=
  ∀ (code : Code) (i : Instr), decode code = .ok i → i.wf = true

/-- The decoder rejects exactly the schedule numbers 6 and 7, and every payload has an operation (R60, R61, R107). -/
def Obligations.OnlyReservedStepsAreRejected : Prop :=
  ∀ (code : Code) (e : DecodeError),
    decode code = .error e ↔ ∃ k, code = .sched k ∧ e = .reservedStep k ∧ (k = 6 ∨ k = 7)

/-- R60, arm by arm: the length first; then the least offset in 0..5 whose byte is 255; else OK, on the first six bytes. -/
def Obligations.FrameEventIsClassified : Prop :=
  ∀ p : List Byte,
    (p.length < 6 → decode (.frame p) = .ok (.frameIncomplete p.length)) ∧
    (6 ≤ p.length → ∀ off < 6, p[off]? = some 255 → (∀ k < off, p[k]? ≠ some 255) →
      decode (.frame p) = .ok (.frameMalformed off)) ∧
    (6 ≤ p.length → (∀ k < 6, p[k]? ≠ some 255) →
      ∃ f, decode (.frame p) = .ok (.frameOk f) ∧ f.bytes = p.take 6)

/-- R42: a payload longer than 6 bytes is treated exactly like its first 6 bytes. -/
def Obligations.ExtraBytesAreIgnored : Prop :=
  ∀ (s : State) (p : List Byte) (rest : List Input), 6 ≤ p.length →
    step { s with inputs := .event (.frame p) :: rest } =
      step { s with inputs := .event (.frame (p.take 6)) :: rest }

/-! ### DECODE and the command register -/

/-- R70, R75: DECODE in an OK cycle writes all five fields, each from its offset, its negate bit and its target, and nothing else. -/
def Obligations.DecodeWritesAllFiveFields : Prop :=
  ∀ (s : State) (c : Cfg) (y : CycleValues) (b0 b1 b2 b3 b4 b5 : Byte) (rest : List Byte),
    s.Running c y → y.status = .ok → y.payload = b0 :: b1 :: b2 :: b3 :: b4 :: b5 :: rest →
    exec .decode s = .next { s with cmd :=
      { fx  := if b5.getLsbD 0 then -((b0.toNat : Scalar) * c.tSurge / 254) else (b0.toNat : Scalar) * c.tSurge / 254
        fy  := if b5.getLsbD 1 then -((b1.toNat : Scalar) * c.tSway / 254) else (b1.toNat : Scalar) * c.tSway / 254
        tau := if b5.getLsbD 3 then -((b3.toNat : Scalar) * c.tYaw / 254) else (b3.toNat : Scalar) * c.tYaw / 254
        fz  := if b5.getLsbD 4 then -((b4.toNat : Scalar) * c.tHeave / 254) else (b4.toNat : Scalar) * c.tHeave / 254
        tp  := if b5.getLsbD 2 then -((b2.toNat : Scalar) * c.tPitch / 254) else (b2.toNat : Scalar) * c.tPitch / 254 } }

/-- In a cycle that is not OK, DECODE's position changes nothing (R81, R128; that the position answers a next state there is log entry 15). -/
def Obligations.DecodeIsSkippedUnlessOk : Prop :=
  ∀ (s : State) (c : Cfg) (y : CycleValues), s.Running c y → y.status ≠ .ok → exec .decode s = .next s

/-- R76: on every axis byte 254 maps to exactly the target, byte 0 to 0, and with the negate bit to exactly minus the target and to 0. -/
def Obligations.DecodeEndPointsAreExact : Prop :=
  ∀ (s : State) (c : Cfg) (f : Frame), s.Ready c →
    ∃ t, exec (.frameOk f) s = .next t ∧
      (f.surgeMag = 254 → t.cmd.fx = if f.negSurge then -c.tSurge else c.tSurge) ∧ (f.surgeMag = 0 → t.cmd.fx = 0) ∧
      (f.swayMag = 254 → t.cmd.fy = if f.negSway then -c.tSway else c.tSway) ∧ (f.swayMag = 0 → t.cmd.fy = 0) ∧
      (f.yawMag = 254 → t.cmd.tau = if f.negYaw then -c.tYaw else c.tYaw) ∧ (f.yawMag = 0 → t.cmd.tau = 0) ∧
      (f.heaveMag = 254 → t.cmd.fz = if f.negHeave then -c.tHeave else c.tHeave) ∧ (f.heaveMag = 0 → t.cmd.fz = 0) ∧
      (f.pitchMag = 254 → t.cmd.tp = if f.negPitch then -c.tPitch else c.tPitch) ∧ (f.pitchMag = 0 → t.cmd.tp = 0)

/-- R79: between two frames that are FRAME.OK, toggling one of the bits 0 to 4 negates exactly its own field, and changing bits 7:5
changes nothing; a toggle that makes byte 5 equal to 255 makes the frame malformed, so that DECODE does not run on it. -/
def Obligations.EachSignBitNegatesOneField : Prop :=
  (∀ f : Frame, f.signByte = 255 → ∃ off, off < 6 ∧ decode (.frame f.bytes) = .ok (.frameMalformed off)) ∧
  ∀ (s : State) (c : Cfg) (f : Frame), s.Ready c → f.wf = true →
    ∃ t, exec (.frameOk f) s = .next t ∧
      (∀ f' : Frame, f' = { f with negSurge := !f.negSurge } → f'.wf = true →
        ∃ u, exec (.frameOk f') s = .next u ∧ u.cmd = { t.cmd with fx := -t.cmd.fx }) ∧
      (∀ f' : Frame, f' = { f with negSway := !f.negSway } → f'.wf = true →
        ∃ u, exec (.frameOk f') s = .next u ∧ u.cmd = { t.cmd with fy := -t.cmd.fy }) ∧
      (∀ f' : Frame, f' = { f with negPitch := !f.negPitch } → f'.wf = true →
        ∃ u, exec (.frameOk f') s = .next u ∧ u.cmd = { t.cmd with tp := -t.cmd.tp }) ∧
      (∀ f' : Frame, f' = { f with negYaw := !f.negYaw } → f'.wf = true →
        ∃ u, exec (.frameOk f') s = .next u ∧ u.cmd = { t.cmd with tau := -t.cmd.tau }) ∧
      (∀ f' : Frame, f' = { f with negHeave := !f.negHeave } → f'.wf = true →
        ∃ u, exec (.frameOk f') s = .next u ∧ u.cmd = { t.cmd with fz := -t.cmd.fz }) ∧
      ∀ (f' : Frame) (g : BitVec 3), f' = { f with ign := g } → f'.wf = true → exec (.frameOk f') s = .next t

/-- R58: two sign bytes other than 255 that agree in bits 4..0 give the same step; a sign byte of 255 makes the frame malformed. -/
def Obligations.HighSignBitsAreIgnored : Prop :=
  ∀ (s : State) (rest : List Input) (b0 b1 b2 b3 b4 b5 b5' : Byte),
    (b5 ≠ 255 → b5' ≠ 255 → (∀ k < 5, b5.getLsbD k = b5'.getLsbD k) →
      step { s with inputs := .event (.frame [b0, b1, b2, b3, b4, b5]) :: rest } =
        step { s with inputs := .event (.frame [b0, b1, b2, b3, b4, b5']) :: rest }) ∧
    ∃ off, off < 6 ∧ decode (.frame [b0, b1, b2, b3, b4, 255]) = .ok (.frameMalformed off)

/-- R21: only DECODE of an OK frame writes `CMD`: every other operation that answers a next state leaves it. -/
def Obligations.OnlyDecodeWritesCommand : Prop :=
  ∀ (i : Instr) (s t : State), exec i s = .next t → i ≠ .decode → (∀ f, i ≠ .frameOk f) → t.cmd = s.cmd

/-- R25: after any step of a run, with targets that are not negative, no field exceeds its target in absolute value. -/
def Obligations.CommandStaysInRange : Prop :=
  ∀ (s t : State) (c : Cfg), s.Inv → step s = .next t → t.cfg = some c →
    0 ≤ c.tSurge → 0 ≤ c.tSway → 0 ≤ c.tYaw → 0 ≤ c.tHeave → 0 ≤ c.tPitch →
    |t.cmd.fx| ≤ c.tSurge ∧ |t.cmd.fy| ≤ c.tSway ∧ |t.cmd.tau| ≤ c.tYaw ∧ |t.cmd.fz| ≤ c.tHeave ∧ |t.cmd.tp| ≤ c.tPitch

/-! ### Mixers -/

/-- R87: MIXH answers a next state in which RH is the product, lane by lane, and nothing else has changed. -/
def Obligations.MixhProducesRawHorizontal : Prop :=
  ∀ (s : State) (c : Cfg) (y : CycleValues), s.Running c y →
    ∃ rh, exec .mixh s = .next { s with cyc := some { y with rh := some rh } } ∧ IsRawHorizontal c s.cmd rh

/-- R88: MIXV answers a next state in which RV is the product, lane by lane, and nothing else has changed. -/
def Obligations.MixvProducesRawVertical : Prop :=
  ∀ (s : State) (c : Cfg) (y : CycleValues), s.Running c y →
    ∃ rv, exec .mixv s = .next { s with cyc := some { y with rv := some rv } } ∧ IsRawVertical c s.cmd rv

/-- R89: both mixers are linear; a zero command gives zero lanes, and a negated command negated lanes. -/
def Obligations.MixersAreLinear : Prop :=
  ∀ (c : Cfg) (a b : Scalar) (m n : Cmd),
    (∀ i : Fin 4, (mixH c (Cmd.combine a b m n)).get i = a * (mixH c m).get i + b * (mixH c n).get i) ∧
    (∀ i : Fin 2, (mixV c (Cmd.combine a b m n)).get i = a * (mixV c m).get i + b * (mixV c n).get i) ∧
    (∀ i : Fin 4, (mixH c Cmd.zero).get i = 0) ∧ (∀ i : Fin 2, (mixV c Cmd.zero).get i = 0) ∧
    (∀ i : Fin 4, (mixH c ⟨-m.fx, -m.fy, -m.tau, -m.fz, -m.tp⟩).get i = -(mixH c m).get i) ∧
    (∀ i : Fin 2, (mixV c ⟨-m.fx, -m.fy, -m.tau, -m.fz, -m.tp⟩).get i = -(mixV c m).get i)

/-! ### Saturation -/

/-- R101: SATH answers a next state in which H is RH scaled to LIM_H, and nothing else has changed. -/
def Obligations.SathProducesScaledHorizontal : Prop :=
  ∀ (s : State) (c : Cfg) (y : CycleValues) (rh : Vec Scalar 4), s.Running c y → y.rh = some rh →
    ∃ h, exec .sath s = .next { s with cyc := some { y with h := some h } } ∧ IsScaled rh c.limH.val h

/-- R102: SATV answers a next state in which V is RV scaled to LIM_V, and nothing else has changed. -/
def Obligations.SatvProducesScaledVertical : Prop :=
  ∀ (s : State) (c : Cfg) (y : CycleValues) (rv : Vec Scalar 2), s.Running c y → y.rv = some rv →
    ∃ v, exec .satv s = .next { s with cyc := some { y with v := some v } } ∧ IsScaled rv c.limV.val v

/-- R96: the max-norm bounds every absolute value, is one of them, is not negative, and is 0 exactly when every element is 0. -/
def Obligations.MaxNormIsLargestAbsoluteValue : Prop :=
  ∀ f : List Scalar,
    (∀ x ∈ f, |x| ≤ maxAbs f) ∧ (f ≠ [] → ∃ x ∈ f, |x| = maxAbs f) ∧ 0 ≤ maxAbs f ∧
    (maxAbs f = 0 ↔ ∀ x ∈ f, x = 0)

/-- R104, for a valid limit: direction, idempotence, zero handling, bound, sign and zero pattern, ratios. -/
def Obligations.ScalerLaws : Prop :=
  ∀ (n : Nat) (f : Vec Scalar n) (l : Limit),
    (l.val < maxAbs f.toList →
      (∀ i, (sat f l).get i = f.get i * (l.val / maxAbs f.toList)) ∧ maxAbs (sat f l).toList = l.val) ∧
    (maxAbs f.toList ≤ l.val → sat f l = f) ∧ sat (sat f l) l = sat f l ∧
    ((∀ i, f.get i = 0) → ∀ i, (sat f l).get i = 0) ∧
    (∀ i, |(sat f l).get i| ≤ l.val) ∧
    (∀ i, ((0 < (sat f l).get i ↔ 0 < f.get i) ∧ ((sat f l).get i < 0 ↔ f.get i < 0)) ∧
      ((sat f l).get i = 0 ↔ f.get i = 0)) ∧
    (∀ i j, (sat f l).get i * f.get j = (sat f l).get j * f.get i)

/-- R99: with the explicit zero guard in front, `sat` is the same function on a valid limit. -/
def Obligations.ZeroGuardIsImplied : Prop :=
  ∀ (n : Nat) (f : Vec Scalar n) (l : Limit),
    (if maxAbs f.toList = 0 then f else sat f l) = sat f l

/-! ### EMIT and the record -/

/-- R112: EMIT answers a next state in which the record of the cycle's status, info, H and V is the newest, and the cycle is over. -/
def Obligations.EmitHandsOverRecord : Prop :=
  ∀ (s : State) (c : Cfg) (y : CycleValues) (h : Vec Scalar 4) (v : Vec Scalar 2),
    s.Running c y → y.h = some h → y.v = some v →
    exec .emit s = .next { s with cyc := none, records := s.records ++ [⟨y.status, y.info, h, v⟩] }

/-- The status codes of R120; code 3 is never produced. -/
def Obligations.StatusCodesAreDistinct : Prop :=
  Status.ok.code = 0 ∧ Status.incomplete.code = 1 ∧ Status.malformed.code = 2 ∧ ∀ st : Status, st.code ≠ 3

/-- The adapter's side of a value (R116): zero counts as non-negative, the duty is the absolute value. -/
def Obligations.AdapterSeesSignAndMagnitude : Prop :=
  ∀ v : Scalar, (0 ≤ v → direction v = .nonNegative ∧ duty v = v) ∧ (v < 0 → direction v = .negative ∧ duty v = -v)

/-! ### The three frame operations -/

/-- R108: FRAME.OK in a configured, idle block: the command of the frame, the record of its six values with status OK, nothing
else; the same frame next gives the same record again; zero magnitudes give a zero command and a record of zeros. -/
def Obligations.FrameOkRunsWholeCycle : Prop :=
  ∀ (s : State) (c : Cfg) (f : Frame), s.Ready c →
    ∃ m h v t, exec (.frameOk f) s = .next t ∧
      t = { s with cmd := m, records := s.records ++ [⟨.ok, none, h, v⟩] } ∧ IsCommandOf c f m ∧ IsThrust c m h v ∧
      exec (.frameOk f) t = .next { t with records := t.records ++ [⟨.ok, none, h, v⟩] } ∧
      (f.surgeMag = 0 → f.swayMag = 0 → f.pitchMag = 0 → f.yawMag = 0 → f.heaveMag = 0 →
        m = ⟨0, 0, 0, 0, 0⟩ ∧ (∀ j, h.get j = 0) ∧ ∀ j, v.get j = 0)

/-- R109: FRAME.INCOMPLETE: the command register is kept, and its six values are emitted with status INCOMPLETE and the length;
a retained command of zero gives a record of zeros. -/
def Obligations.FrameIncompleteKeepsCommand : Prop :=
  ∀ (s : State) (c : Cfg) (n : Nat), s.Ready c →
    ∃ h v, exec (.frameIncomplete n) s = .next { s with records := s.records ++ [⟨.incomplete, some n, h, v⟩] } ∧
      IsThrust c s.cmd h v ∧ (s.cmd = ⟨0, 0, 0, 0, 0⟩ → (∀ j, h.get j = 0) ∧ ∀ j, v.get j = 0)

/-- R110: FRAME.MALFORMED: the command register is kept, and its six values are emitted with status MALFORMED and the offset. -/
def Obligations.FrameMalformedKeepsCommand : Prop :=
  ∀ (s : State) (c : Cfg) (off : Nat), s.Ready c →
    ∃ h v, exec (.frameMalformed off) s = .next { s with records := s.records ++ [⟨.malformed, some off, h, v⟩] } ∧
      IsThrust c s.cmd h v

/-- Each of the three frame operations is its cycle begun, with the status and info of its class, and then the six micro-operations
in the order of R107 (R61). That a begun cycle stands in State is log entry 5; that DECODE's position is passed over in a cycle that is
not OK is log entry 15. -/
def Obligations.FrameRunsTheSchedule : Prop :=
  ∀ s : State,
    (∀ f : Frame, exec (.frameOk f) s = andThen (beginCycle .ok none f.bytes s) microOperations) ∧
    (∀ n, exec (.frameIncomplete n) s = andThen (beginCycle .incomplete (some n) [] s) microOperations) ∧
    ∀ off, exec (.frameMalformed off) s = andThen (beginCycle .malformed (some off) [] s) microOperations

/-- R114: a frame that is not OK repeats the values of the previous record, or emits zeros if there was none since reset. -/
def Obligations.NonOkFrameRepeatsRecord : Prop :=
  ∀ (s : State) (c : Cfg) (i : Instr), s.Inv → s.cfg = some c →
    ((∃ n, i = .frameIncomplete n) ∨ ∃ off, i = .frameMalformed off) →
    ∃ o, exec i s = .next { s with records := s.records ++ [o] } ∧
      (∀ l, s.records.getLast? = some l → o.h = l.h ∧ o.v = l.v) ∧
      (s.records = [] → (∀ j, o.h.get j = 0) ∧ ∀ j, o.v.get j = 0)

/-- R143: whatever the configuration, if the first frame event after reset is not OK, the record is all zero with that status. -/
def Obligations.FirstBadFrameEmitsZeros : Prop :=
  ∀ (c : Cfg) (p : List Byte) (rest : List Input), (p.length < 6 ∨ ∃ k < 6, p[k]? = some 255) →
    ∃ (st : Status) (info : Nat),
      (p.length < 6 → st = .incomplete ∧ info = p.length) ∧
      (6 ≤ p.length → st = .malformed ∧ p[info]? = some 255 ∧ ∀ k < info, p[k]? ≠ some 255) ∧
      step ⟨State.reset.cmd, some c, State.reset.cyc, .event (.frame p) :: rest, State.reset.records⟩ =
        .next ⟨State.reset.cmd, some c, none, rest, [⟨st, some info, ⟨[0, 0, 0, 0], rfl⟩, ⟨[0, 0], rfl⟩⟩]⟩

/-- R122: any number of bad frames in a row leave the command register, and every record of theirs carries the same six values. -/
def Obligations.BadFramesDoNotAccumulate : Prop :=
  ∀ (s : State) (c : Cfg) (ps : List (List Byte)) (rest : List Input), s.Ready c →
    s.inputs = frameInputs ps ++ rest → (∀ p ∈ ps, p.length < 6 ∨ ∃ k < 6, p[k]? = some 255) →
    ∃ os, Sys2Proof.core.run ps.length s = .next { s with inputs := rest, records := s.records ++ os } ∧
      os.length = ps.length ∧ ∀ o ∈ os, o.status ≠ .ok ∧ (o.h, o.v) = thrust c s.cmd

/-! ### The whole step and runs -/

/-- R107: the step on a frame event is the spec's `cycle`, for every payload: it never stops the block. -/
def Obligations.StepIsTheSpecCycle : Prop :=
  ∀ (s : State) (c : Cfg) (p : List Byte) (rest : List Input), s.Ready c → s.inputs = .event (.frame p) :: rest →
    step s = .next
      { s with cmd := (cycle c s.cmd p).1, inputs := rest, records := s.records ++ [(cycle c s.cmd p).2] }

/-- R154, R153: a sequence of frame events gives the records of the spec's cycles in order, one for each, and their final command. -/
def Obligations.RunIsTheSpecRun : Prop :=
  ∀ (s : State) (c : Cfg) (ps : List (List Byte)) (rest : List Input), s.Ready c → s.inputs = frameInputs ps ++ rest →
    (cycles c s.cmd ps).2.length = ps.length ∧
    Sys2Proof.core.run ps.length s = .next
      { s with cmd := (cycles c s.cmd ps).1, inputs := rest, records := s.records ++ (cycles c s.cmd ps).2 }

/-- The invariant of a run is kept by every step, from every state that meets it. -/
def Obligations.StepKeepsRunInvariant : Prop :=
  ∀ s t : State, s.Inv → step s = .next t → t.Inv

/-- R117: after any number of steps from a state of a run, every record since reset is within its group's limits; right after
reset, at start or by a reset event, there is no record. -/
def Obligations.EveryRecordIsWithinLimits : Prop :=
  State.reset.records = [] ∧ (∀ (s t : State) (rest : List Input), s.inputs = .reset :: rest → step s = .next t → t.records = []) ∧
  ∀ (s t : State) (n : Nat) (c : Cfg), s.Inv → Sys2Proof.core.run n s = .next t → t.cfg = some c →
    ∀ o ∈ t.records, (∀ i, duty (o.h.get i) ≤ c.limH.val) ∧ ∀ i, duty (o.v.get i) ≤ c.limV.val

/-- A configured block of a run that is presented nothing but frame events and resets never stops (R107, R115, R139), however long. -/
def Obligations.FramesAndResetsNeverStopTheBlock : Prop :=
  ∀ (s : State) (c : Cfg) (n : Nat), s.Inv → s.cfg = some c →
    (∀ x ∈ s.inputs, x = .reset ∨ ∃ p, x = .event (.frame p)) → ∃ t : State, Sys2Proof.core.run n s = .next t

/-- R29, R146: no operation and no step writes the configuration once it is installed. -/
def Obligations.ConfigurationIsNeverWritten : Prop :=
  (∀ (i : Instr) (s t : State), exec i s = .next t → t.cfg = s.cfg) ∧
  ∀ (s t : State) (c : Cfg), s.cfg = some c → step s = .next t → t.cfg = some c

/-- What an operation can touch: not the host's moves, and the records at most by one more at the end. -/
def Obligations.ExecOnlyAppendsOneRecord : Prop :=
  ∀ (i : Instr) (s t : State), exec i s = .next t →
    t.inputs = s.inputs ∧ (t.records = s.records ∨ ∃ o, t.records = s.records ++ [o])

/-- R103, R52: the horizontal values of a record depend on nothing vertical, and the vertical values on nothing horizontal. For two
OK frames, whose operands may differ in everything of the other group, in two configurations and states that may differ likewise; and for
any two frames that are not OK, with retained commands that may differ in the other group's fields. -/
def Obligations.GroupsDoNotInterfere : Prop :=
  ∀ (s s' t t' : State) (c c' : Cfg), s.cfg = some c → s'.cfg = some c' →
    (∀ f f' : Frame, exec (.frameOk f) s = .next t → exec (.frameOk f') s' = .next t' →
      (c.mh = c'.mh → c.limH = c'.limH → c.tSurge = c'.tSurge → c.tSway = c'.tSway → c.tYaw = c'.tYaw →
        f.surgeMag = f'.surgeMag → f.swayMag = f'.swayMag → f.yawMag = f'.yawMag →
        f.negSurge = f'.negSurge → f.negSway = f'.negSway → f.negYaw = f'.negYaw →
        t.records.getLast?.map Out.h = t'.records.getLast?.map Out.h) ∧
      (c.mv = c'.mv → c.limV = c'.limV → c.tHeave = c'.tHeave → c.tPitch = c'.tPitch →
        f.heaveMag = f'.heaveMag → f.pitchMag = f'.pitchMag → f.negHeave = f'.negHeave → f.negPitch = f'.negPitch →
        t.records.getLast?.map Out.v = t'.records.getLast?.map Out.v)) ∧
    ∀ i i' : Instr, i.isRetaining = true → i'.isRetaining = true → exec i s = .next t → exec i' s' = .next t' →
      (c.mh = c'.mh → c.limH = c'.limH → s.cmd.fx = s'.cmd.fx → s.cmd.fy = s'.cmd.fy → s.cmd.tau = s'.cmd.tau →
        t.records.getLast?.map Out.h = t'.records.getLast?.map Out.h) ∧
      (c.mv = c'.mv → c.limV = c'.limV → s.cmd.fz = s'.cmd.fz → s.cmd.tp = s'.cmd.tp →
        t.records.getLast?.map Out.v = t'.records.getLast?.map Out.v)

/-- R48, R80: a cycle's record and command depend only on the configuration, the payload and the previous command, and for a
payload without bad bytes not even on that. -/
def Obligations.CycleHasNoHiddenState : Prop :=
  ∀ (s s' : State) (c : Cfg) (p : List Byte) (rest rest' : List Input), s.Ready c → s'.Ready c →
    s.inputs = .event (.frame p) :: rest → s'.inputs = .event (.frame p) :: rest' →
    (s.cmd = s'.cmd ∨ (6 ≤ p.length ∧ ∀ k < 6, p[k]? ≠ some 255)) →
    ∃ m o, step s = .next { s with cmd := m, inputs := rest, records := s.records ++ [o] } ∧
      step s' = .next { s' with cmd := m, inputs := rest', records := s'.records ++ [o] }

/-! ### The host's other moves, and where the machine stops -/

/-- R140, R141, R144: the reset event makes the command register zero and leaves no record and no cycle; the configuration is untouched. -/
def Obligations.ResetEventRestoresFirstUse : Prop :=
  ∀ (s : State) (rest : List Input), s.inputs = .reset :: rest →
    step s = .next { cmd := ⟨0, 0, 0, 0, 0⟩, cfg := s.cfg, cyc := none, inputs := rest, records := [] }

/-- R144: a reset followed by the same frame events gives the same records and command, whatever came before. -/
def Obligations.ResetForgetsHistory : Prop :=
  ∀ (s s' : State) (c : Cfg) (ps : List (List Byte)), s.cfg = some c → s'.cfg = some c →
    s.inputs = .reset :: frameInputs ps → s'.inputs = .reset :: frameInputs ps →
    ∃ t, Sys2Proof.core.run (ps.length + 1) s = .next t ∧ Sys2Proof.core.run (ps.length + 1) s' = .next t ∧
      t.records.length = ps.length ∧ t.cfg = some c

/-- R145: an unconfigured block takes exactly the configurations that are of the right shape and have positive limits, and is then
in the reset state with that configuration. -/
def Obligations.InstallTakesExactlyValidConfigurations : Prop :=
  ∀ (s : State) (r : RawCfg) (rest : List Input), s.cfg = none → s.inputs = .install r :: rest →
    (∀ t, step s = .next t ↔
      ∃ c, r = rawOf c ∧ t = { cmd := ⟨0, 0, 0, 0, 0⟩, cfg := some c, cyc := none, inputs := rest, records := [] }) ∧
    ((∃ t, step s = .next t) ↔
      r.mh.length = 4 ∧ (∀ row ∈ r.mh, row.length = 3) ∧ r.mv.length = 2 ∧ (∀ row ∈ r.mv, row.length = 2) ∧
        0 < r.limH ∧ 0 < r.limV)

/-- R126: a configuration with a limit that is zero or negative is refused when installed; if its shapes are right, the limit
that is wrong is named, LIM_H first (the order is log entry 12). -/
def Obligations.InstallRefusesNonPositiveLimit : Prop :=
  ∀ (s : State) (r : RawCfg) (rest : List Input), s.cfg = none → s.inputs = .install r :: rest →
    (r.limH ≤ 0 ∨ r.limV ≤ 0) →
    (∃ e, step s = .fault (.configError e)) ∧
    (r.mh.length = 4 → (∀ row ∈ r.mh, row.length = 3) → r.mv.length = 2 → (∀ row ∈ r.mv, row.length = 2) →
      (r.limH ≤ 0 → step s = .fault (.configError .limitH)) ∧ (0 < r.limH → step s = .fault (.configError .limitV)))

/-- R125: a configuration of the wrong shape is refused when installed; the matrix named is the first that is wrong (log entry 12). -/
def Obligations.InstallRefusesWrongShape : Prop :=
  ∀ (s : State) (r : RawCfg) (rest : List Input), s.cfg = none → s.inputs = .install r :: rest →
    ((r.mh.length ≠ 4 ∨ ∃ row ∈ r.mh, row.length ≠ 3) → step s = .fault (.configError .shapeMh)) ∧
    (r.mh.length = 4 → (∀ row ∈ r.mh, row.length = 3) → (r.mv.length ≠ 2 ∨ ∃ row ∈ r.mv, row.length ≠ 2) →
      step s = .fault (.configError .shapeMv))

/-- A configured block takes no second configuration (R146; that the model stops there is log entry 13). -/
def Obligations.SecondInstallIsRefused : Prop :=
  ∀ (s : State) (c : Cfg) (r : RawCfg) (rest : List Input), s.cfg = some c → s.inputs = .install r :: rest →
    step s = .refused .configChange

/-- R145: no operation runs in a block without a configuration. -/
def Obligations.NoCycleWithoutConfiguration : Prop :=
  ∀ (i : Instr) (s : State), s.cfg = none → exec i s = .refused .unconfigured

/-- The model's stops inside a configured block, all the model's own (log entries 10 and 14): a frame during a cycle, a
micro-operation outside one, a value that does not exist yet, and DECODE of a payload that lacks one of its six bytes. -/
def Obligations.OutOfPlaceOperationsAreRefused : Prop :=
  ∀ (s : State) (c : Cfg), s.cfg = some c →
    (∀ y, s.cyc = some y →
      (∀ f, exec (.frameOk f) s = .refused .frameDuringCycle) ∧
      (∀ n, exec (.frameIncomplete n) s = .refused .frameDuringCycle) ∧
      (∀ off, exec (.frameMalformed off) s = .refused .frameDuringCycle) ∧
      (y.rh = none → exec .sath s = .refused (.valueAbsent .rh)) ∧
      (y.rv = none → exec .satv s = .refused (.valueAbsent .rv)) ∧
      (y.h = none → exec .emit s = .refused (.valueAbsent .h)) ∧
      (∀ h, y.h = some h → y.v = none → exec .emit s = .refused (.valueAbsent .v)) ∧
      (y.status = .ok → y.payload.length < 6 → exec .decode s = .refused (.payloadOffset y.payload.length))) ∧
    (s.cyc = none →
      ∀ i : Instr, (i = .decode ∨ i = .mixh ∨ i = .mixv ∨ i = .sath ∨ i = .satv ∨ i = .emit) →
        exec i s = .refused .outsideCycle)

/-- The document's two end-to-end scenarios (W6, W7), from the reset state of the model, whatever the open entries of its
configuration are (log entry 7). -/
def Obligations.DocumentedScenariosFromReset : Prop :=
  (∃ t, step { State.reset with inputs := [.event (.frame [127, 0, 0, 0, 0, 0])] } = .next t ∧
    t.cmd = ⟨1023 / 2, 0, 0, 0, 0⟩ ∧
    t.records = [⟨.ok, none, ⟨[1023 / 8, 1023 / 8, -1023 / 8, -1023 / 8], rfl⟩, ⟨[0, 0], rfl⟩⟩]) ∧
  (∃ t, step { State.reset with inputs := [.event (.frame [254, 254, 0, 0, 0, 0])] } = .next t ∧
    t.cmd = ⟨1023, 1023, 0, 0, 0⟩ ∧
    t.records = [⟨.ok, none, ⟨[255, 0, 0, -255], rfl⟩, ⟨[0, 0], rfl⟩⟩])

/-- The step too rejects the schedule numbers 6 and 7 by name, in every state (model's choice, log entry 6; R61 gives them no
operation). -/
def Obligations.ReservedStepsAreRefused : Prop :=
  ∀ (s : State) (k : BitVec 3) (rest : List Input), s.inputs = .event (.sched k) :: rest → k = 6 ∨ k = 7 →
    step s = .refused (.reservedStep k)
end

