-- ==== Sys2Proof/Laws/Vec.lean ====
section
/-! SUPPORT. Small lemmas about fixed-length vectors. -/

namespace Sys2Proof.Vec

theorem eq_of_toList {α : Type} {n : Nat} {u v : Vec α n} (h : u.toList = v.toList) : u = v := by
  cases u; cases v; cases h; rfl

@[simp] theorem toList_map {α β : Type} {n : Nat} (f : α → β) (v : Vec α n) :
    (v.map f).toList = v.toList.map f := rfl

@[simp] theorem get_map {α β : Type} {n : Nat} (f : α → β) (v : Vec α n) (i : Fin n) :
    (v.map f).get i = f (v.get i) := by simp [get]

theorem exists_two {α : Type} (v : Vec α 2) : ∃ a b, v = ⟨[a, b], rfl⟩ := by
  obtain ⟨l, h⟩ := v
  match l, h with
  | [a, b], _ => exact ⟨a, b, rfl⟩

theorem exists_three {α : Type} (v : Vec α 3) : ∃ a b c, v = ⟨[a, b, c], rfl⟩ := by
  obtain ⟨l, h⟩ := v
  match l, h with
  | [a, b, c], _ => exact ⟨a, b, c, rfl⟩

theorem exists_four {α : Type} (v : Vec α 4) : ∃ a b c d, v = ⟨[a, b, c, d], rfl⟩ := by
  obtain ⟨l, h⟩ := v
  match l, h with
  | [a, b, c, d], _ => exact ⟨a, b, c, d, rfl⟩

/-- A vector of a list of the right length, and of no other. -/
theorem ofList?_eq_some {α : Type} {n : Nat} {l : List α} {v : Vec α n} :
    ofList? n l = some v ↔ l = v.toList := by
  unfold ofList?
  constructor
  · intro h
    split at h
    · cases h; rfl
    · cases h
  · rintro rfl
    simp [v.length_toList]

theorem ofList?_eq_none {α : Type} {n : Nat} {l : List α} : ofList? n l = none ↔ l.length ≠ n := by
  unfold ofList?
  split <;> simp_all

theorem get_mem {α : Type} {n : Nat} (v : Vec α n) (i : Fin n) : v.get i ∈ v.toList := List.getElem_mem _

theorem exists_get_of_mem {α : Type} {n : Nat} {v : Vec α n} {x : α} (h : x ∈ v.toList) : ∃ i, v.get i = x := by
  obtain ⟨k, hk, rfl⟩ := List.getElem_of_mem h
  exact ⟨⟨k, v.length_toList ▸ hk⟩, rfl⟩

theorem toList_two {α : Type} (v : Vec α 2) : v.toList = [v.get 0, v.get 1] := by
  obtain ⟨a, b, rfl⟩ := v.exists_two; rfl

theorem toList_three {α : Type} (v : Vec α 3) : v.toList = [v.get 0, v.get 1, v.get 2] := by
  obtain ⟨a, b, c, rfl⟩ := v.exists_three; rfl

end Sys2Proof.Vec
end

