-- ==== Sys2Proof/Laws/Arith.lean ====
section
/-! SUPPORT. The vector operations, one small lemma per way of using them. -/

namespace Sys2Proof.Machine

@[simp] theorem dot_two (a b x y : Scalar) : dot [a, b] [x, y] = a * x + b * y := rfl

@[simp] theorem dot_three (a b c x y z : Scalar) : dot [a, b, c] [x, y, z] = a * x + b * y + c * z := rfl

/-- Lane `i` of a matrix-vector product is row `i` and nothing else of the matrix (R85). -/
@[simp] theorem matvec_get {n k : Nat} (m : Vec (Vec Scalar k) n) (x : Vec Scalar k) (i : Fin n) :
    (matvec m x).get i = dot (m.get i).toList x.toList := by simp [matvec]

theorem sumLeft_zeros (l : List Scalar) (h : ∀ x ∈ l, x = 0) : sumLeft l = 0 := by
  have fold : ∀ (xs : List Scalar) (a : Scalar), (∀ x ∈ xs, x = 0) → xs.foldl (· + ·) a = a := by
    intro xs
    induction xs with
    | nil => simp
    | cons x xs ih => intro a h; simp_all
  cases l with
  | nil => rfl
  | cons x xs => simp_all [sumLeft]

theorem foldl_max_spec (xs : List Scalar) (a : Scalar) :
    a ≤ xs.foldl max a ∧ (∀ x ∈ xs, x ≤ xs.foldl max a) ∧ (xs.foldl max a = a ∨ xs.foldl max a ∈ xs) := by
  induction xs generalizing a with
  | nil => simp
  | cons x xs ih =>
    obtain ⟨h1, h2, h3⟩ := ih (max a x)
    refine ⟨le_trans (le_max_left a x) h1, ?_, ?_⟩
    · intro z hz
      rcases List.mem_cons.mp hz with rfl | hz
      · exact le_trans (le_max_right a z) h1
      · exact h2 z hz
    · rw [List.foldl_cons, List.mem_cons]
      rcases h3 with h3 | h3
      · rw [h3]
        rcases max_choice a x with h | h <;> simp [h]
      · exact .inr (.inr h3)

/-- Every absolute value is at most the max-norm (R96). -/
theorem abs_le_maxAbs {f : List Scalar} {x : Scalar} (h : x ∈ f) : |x| ≤ maxAbs f := by
  cases f with
  | nil => cases h
  | cons a as =>
    obtain ⟨h1, h2, -⟩ := foldl_max_spec (as.map (fun x => |x|)) |a|
    rcases List.mem_cons.mp h with rfl | h
    · exact h1
    · exact h2 _ (List.mem_map_of_mem h)

/-- The max-norm of a group that is not empty is attained (R96). -/
theorem maxAbs_attained {f : List Scalar} (h : f ≠ []) : ∃ x ∈ f, maxAbs f = |x| := by
  cases f with
  | nil => exact absurd rfl h
  | cons a as =>
    obtain ⟨-, -, h3⟩ := foldl_max_spec (as.map (fun x => |x|)) |a|
    rcases h3 with h3 | h3
    · exact ⟨a, List.mem_cons_self, h3⟩
    · obtain ⟨x, hx, he⟩ := List.mem_map.mp h3
      exact ⟨x, List.mem_cons_of_mem a hx, he.symm⟩

theorem maxAbs_le {f : List Scalar} {b : Scalar} (hb : 0 ≤ b) (h : ∀ x ∈ f, |x| ≤ b) : maxAbs f ≤ b := by
  by_cases hf : f = []
  · subst hf; exact hb
  · obtain ⟨x, hx, he⟩ := maxAbs_attained hf
    exact he ▸ h x hx

theorem maxAbs_nonneg (f : List Scalar) : 0 ≤ maxAbs f := by
  by_cases hf : f = []
  · subst hf; exact le_rfl
  · obtain ⟨x, -, he⟩ := maxAbs_attained hf
    exact he ▸ abs_nonneg x

theorem maxAbs_map_mul (f : List Scalar) {k : Scalar} (hk : 0 ≤ k) : maxAbs (f.map (· * k)) = maxAbs f * k := by
  by_cases hf : f = []
  · subst hf; simp [maxAbs]
  · apply le_antisymm
    · refine maxAbs_le (mul_nonneg (maxAbs_nonneg f) hk) fun x hx => ?_
      obtain ⟨z, hz, rfl⟩ := List.mem_map.mp hx
      rw [abs_mul, abs_of_nonneg hk]
      exact mul_le_mul_of_nonneg_right (abs_le_maxAbs hz) hk
    · obtain ⟨x, hx, he⟩ := maxAbs_attained hf
      rw [he, ← abs_of_nonneg hk, ← abs_mul, abs_of_nonneg hk]
      exact abs_le_maxAbs (List.mem_map_of_mem hx)

/-- The scaling path of R95. -/
theorem sat_of_exceeds {n : Nat} {f : Vec Scalar n} {l : Limit} (h : l.val < maxAbs f.toList) :
    sat f l = f.map (· * (l.val / maxAbs f.toList)) := by
  simp [sat, exceeds, h]

/-- The pass-through path of R95. -/
theorem sat_of_within {n : Nat} {f : Vec Scalar n} {l : Limit} (h : maxAbs f.toList ≤ l.val) : sat f l = f := by
  simp [sat, exceeds, not_lt.mpr h]

/-- No limit is passed: the max-norm of what `sat` answers (R95, R105 (b)). -/
theorem maxAbs_sat_le {n : Nat} (f : Vec Scalar n) (l : Limit) : maxAbs (sat f l).toList ≤ l.val := by
  by_cases h : l.val < maxAbs f.toList
  · have hm : 0 < maxAbs f.toList := l.property.trans h
    rw [sat_of_exceeds h, Vec.toList_map, maxAbs_map_mul _ (div_pos l.property hm).le, mul_div_cancel₀ _ hm.ne']
  · rw [sat_of_within (not_lt.mp h)]
    exact not_lt.mp h

/-- Lane `i` of MIXH, written out (R87). -/
theorem mixH_get (c : Cfg) (m : Cmd) (i : Fin 4) :
    (mixH c m).get i = (c.mh.get i).get 0 * m.fx + (c.mh.get i).get 1 * m.fy + (c.mh.get i).get 2 * m.tau := by
  rw [mixH, matvec_get, Vec.toList_three]; rfl

/-- Lane `i` of MIXV, written out (R88). -/
theorem mixV_get (c : Cfg) (m : Cmd) (i : Fin 2) :
    (mixV c m).get i = (c.mv.get i).get 0 * m.fz + (c.mv.get i).get 1 * m.tp := by
  rw [mixV, matvec_get, Vec.toList_two]; rfl

@[simp] theorem thrust_fst (c : Cfg) (m : Cmd) : (thrust c m).1 = satH c (mixH c m) := rfl
@[simp] theorem thrust_snd (c : Cfg) (m : Cmd) : (thrust c m).2 = satV c (mixV c m) := rfl

end Sys2Proof.Machine
end

