-- ==== Sys2Proof/Laws/Decode.lean ====
section
/-! SUPPORT. The decoder's helpers: the least terminator, the sign byte's bits, and the word of a byte list. -/

namespace Sys2Proof

/-- `firstTerm` answers none exactly when no byte is 255. -/
theorem firstTerm_eq_none {l : List Byte} : firstTerm l = none ↔ ∀ b ∈ l, b ≠ terminator := by
  induction l with
  | nil => simp [firstTerm]
  | cons b bs ih =>
    unfold firstTerm
    split
    · simp_all
    · simp_all

/-- `firstTerm` answers the least offset whose byte is 255. -/
theorem firstTerm_eq_some {l : List Byte} {off : Nat} :
    firstTerm l = some off ↔ l[off]? = some terminator ∧ ∀ k < off, l[k]? ≠ some terminator := by
  induction l generalizing off with
  | nil => simp [firstTerm]
  | cons b bs ih =>
    unfold firstTerm
    split
    · rename_i hb
      constructor
      · rintro h; cases h; simp [hb]
      · rintro ⟨-, h⟩
        cases off with
        | zero => rfl
        | succ n => exact absurd (by simp [hb]) (h 0 (Nat.succ_pos n))
    · rename_i hb
      cases off with
      | zero => simpa using hb
      | succ n =>
        simp only [Option.map_eq_some_iff, Nat.add_right_cancel_iff, exists_eq_right, ih,
          List.getElem?_cons_succ]
        refine and_congr_right fun _ => ⟨fun h k hk => ?_, fun h k hk => ?_⟩
        · cases k with
          | zero => simp only [List.getElem?_cons_zero, ne_eq, Option.some.injEq]; exact hb
          | succ j => simpa using h j (Nat.lt_of_succ_lt_succ hk)
        · simpa using h (k + 1) (Nat.succ_lt_succ hk)

theorem firstTerm_lt {l : List Byte} {off : Nat} (h : firstTerm l = some off) : off < l.length := by
  have := (firstTerm_eq_some.mp h).1
  exact (List.getElem?_eq_some_iff.mp this).1

/-- The sign byte taken apart again gives its six fields: all 256 sign bytes. -/
theorem signByte_fields : ∀ (g : BitVec 3) (h y p w s : Bool),
    bitOf (g ++ BitVec.ofBool h ++ BitVec.ofBool y ++ BitVec.ofBool p ++ BitVec.ofBool w ++ BitVec.ofBool s) 0 = s ∧
    bitOf (g ++ BitVec.ofBool h ++ BitVec.ofBool y ++ BitVec.ofBool p ++ BitVec.ofBool w ++ BitVec.ofBool s) 1 = w ∧
    bitOf (g ++ BitVec.ofBool h ++ BitVec.ofBool y ++ BitVec.ofBool p ++ BitVec.ofBool w ++ BitVec.ofBool s) 2 = p ∧
    bitOf (g ++ BitVec.ofBool h ++ BitVec.ofBool y ++ BitVec.ofBool p ++ BitVec.ofBool w ++ BitVec.ofBool s) 3 = y ∧
    bitOf (g ++ BitVec.ofBool h ++ BitVec.ofBool y ++ BitVec.ofBool p ++ BitVec.ofBool w ++ BitVec.ofBool s) 4 = h ∧
    BitVec.extractLsb' 5 3
      (g ++ BitVec.ofBool h ++ BitVec.ofBool y ++ BitVec.ofBool p ++ BitVec.ofBool w ++ BitVec.ofBool s) = g := by
  decide +kernel

@[simp] theorem bitOf_signByte_zero (f : Frame) : bitOf f.signByte 0 = f.negSurge :=
  (signByte_fields f.ign f.negHeave f.negYaw f.negPitch f.negSway f.negSurge).1
@[simp] theorem bitOf_signByte_one (f : Frame) : bitOf f.signByte 1 = f.negSway :=
  (signByte_fields f.ign f.negHeave f.negYaw f.negPitch f.negSway f.negSurge).2.1
@[simp] theorem bitOf_signByte_two (f : Frame) : bitOf f.signByte 2 = f.negPitch :=
  (signByte_fields f.ign f.negHeave f.negYaw f.negPitch f.negSway f.negSurge).2.2.1
@[simp] theorem bitOf_signByte_three (f : Frame) : bitOf f.signByte 3 = f.negYaw :=
  (signByte_fields f.ign f.negHeave f.negYaw f.negPitch f.negSway f.negSurge).2.2.2.1
@[simp] theorem bitOf_signByte_four (f : Frame) : bitOf f.signByte 4 = f.negHeave :=
  (signByte_fields f.ign f.negHeave f.negYaw f.negPitch f.negSway f.negSurge).2.2.2.2.1
@[simp] theorem ign_signByte (f : Frame) : f.signByte.extractLsb' 5 3 = f.ign :=
  (signByte_fields f.ign f.negHeave f.negYaw f.negPitch f.negSway f.negSurge).2.2.2.2.2

/-- The sign byte is 255 exactly when all its fields are set (R58). -/
theorem signByte_eq_term : ∀ (g : BitVec 3) (h y p w s : Bool),
    (g ++ BitVec.ofBool h ++ BitVec.ofBool y ++ BitVec.ofBool p ++ BitVec.ofBool w ++ BitVec.ofBool s = terminator) ↔
      (s && w && p && y && h && g == 7) = true := by
  decide +kernel

/-- A sign byte put together again from its own bits (all 256 bytes). -/
theorem signByte_ofBytes : ∀ b : Byte, (Frame.ofBytes 0 0 0 0 0 b).signByte = b := by
  decide +kernel

/-- A frame put together from its own bytes is that frame. -/
@[simp] theorem ofBytes_bytes (f : Frame) :
    Frame.ofBytes f.surgeMag f.swayMag f.pitchMag f.yawMag f.heaveMag f.signByte = f := by
  simp [Frame.ofBytes]

/-- The bytes of a frame made from six bytes are those six. -/
@[simp] theorem bytes_ofBytes (b0 b1 b2 b3 b4 b5 : Byte) :
    (Frame.ofBytes b0 b1 b2 b3 b4 b5).bytes = [b0, b1, b2, b3, b4, b5] := by
  have h : (Frame.ofBytes b0 b1 b2 b3 b4 b5).signByte = b5 := signByte_ofBytes b5
  simp only [Frame.bytes, h]
  rfl

/-- A frame is well-formed exactly when none of its six bytes is 255 (R57, R58). -/
theorem wf_iff_bytes {f : Frame} : f.wf = true ↔ ∀ b ∈ f.bytes, b ≠ terminator := by
  have hs : f.signByte = terminator ↔
      (f.negSurge && f.negSway && f.negPitch && f.negYaw && f.negHeave && f.ign == 7) = true :=
    signByte_eq_term f.ign f.negHeave f.negYaw f.negPitch f.negSway f.negSurge
  simp only [Frame.bytes, List.forall_mem_cons, List.not_mem_nil, IsEmpty.forall_iff, implies_true, and_true, Frame.wf,
    Bool.and_eq_true, bne_iff_ne, ne_eq, Bool.not_eq_eq_eq_not, Bool.not_true, Bool.eq_false_iff]
  simp only [hs, Bool.and_eq_true]
  tauto

/-- A payload that is not short has its six bytes. -/
theorem exists_six {p : List Byte} (h : 6 ≤ p.length) :
    ∃ b0 b1 b2 b3 b4 b5 r, p = b0 :: b1 :: b2 :: b3 :: b4 :: b5 :: r := by
  match p, h with
  | b0 :: b1 :: b2 :: b3 :: b4 :: b5 :: r, _ => exact ⟨b0, b1, b2, b3, b4, b5, r, rfl⟩

/-- A short payload is classified by its length alone. -/
theorem decodeFrame_short (p : List Byte) (h : p.length < 6) : decodeFrame p = .frameIncomplete p.length := by
  match p, h with
  | [], _ => rfl
  | [_], _ => rfl
  | [_, _], _ => rfl
  | [_, _, _], _ => rfl
  | [_, _, _, _], _ => rfl
  | [_, _, _, _, _], _ => rfl
  | _ :: _ :: _ :: _ :: _ :: _ :: _, h => exact absurd h (by simp)

theorem wordOfBytes_bytesOfWord (l : List Byte) : bytesOfWord l.length (wordOfBytes l) = l := by
  induction l with
  | nil => rfl
  | cons b bs ih =>
    have hb := b.isLt
    have hm : (b.toNat + 256 * wordOfBytes bs) / 256 = wordOfBytes bs := by omega
    simp only [List.length_cons, bytesOfWord, wordOfBytes, hm, ih, List.cons.injEq, and_true]
    apply BitVec.eq_of_toNat_eq
    simp only [BitVec.toNat_ofNat]
    omega

end Sys2Proof
end

