-- ==== Sys2Proof/Laws/State.lean ====
section
/-! SUPPORT. One lemma per field for every named update of State, and the fields of the reset state. -/

namespace Sys2Proof.Machine

@[simp] theorem endCycle_cmd (o : Out) (s : State) : (endCycle o s).cmd = s.cmd := rfl
@[simp] theorem endCycle_cfg (o : Out) (s : State) : (endCycle o s).cfg = s.cfg := rfl
@[simp] theorem endCycle_cyc (o : Out) (s : State) : (endCycle o s).cyc = none := rfl
@[simp] theorem endCycle_inputs (o : Out) (s : State) : (endCycle o s).inputs = s.inputs := rfl
@[simp] theorem endCycle_records (o : Out) (s : State) : (endCycle o s).records = s.records ++ [o] := rfl

@[simp] theorem resetEvent_cmd (s : State) : (resetEvent s).cmd = Cmd.zero := rfl
@[simp] theorem resetEvent_cfg (s : State) : (resetEvent s).cfg = s.cfg := rfl
@[simp] theorem resetEvent_cyc (s : State) : (resetEvent s).cyc = none := rfl
@[simp] theorem resetEvent_inputs (s : State) : (resetEvent s).inputs = s.inputs := rfl
@[simp] theorem resetEvent_records (s : State) : (resetEvent s).records = [] := rfl

@[simp] theorem reset_cmd : State.reset.cmd = Cmd.zero := rfl
@[simp] theorem reset_cfg : State.reset.cfg = some vehicle := rfl
@[simp] theorem reset_cyc : State.reset.cyc = none := rfl
@[simp] theorem reset_inputs : State.reset.inputs = [] := rfl
@[simp] theorem reset_records : State.reset.records = [] := rfl

@[simp] theorem fresh_payload (st : Status) (i : Option Nat) (p : List Byte) : (CycleValues.fresh st i p).payload = p := rfl
@[simp] theorem fresh_status (st : Status) (i : Option Nat) (p : List Byte) : (CycleValues.fresh st i p).status = st := rfl
@[simp] theorem fresh_info (st : Status) (i : Option Nat) (p : List Byte) : (CycleValues.fresh st i p).info = i := rfl

@[simp] theorem placeCode_cmd (code : Code) (s : State) : (placeCode code s).cmd = s.cmd := by
  cases code <;> rfl
@[simp] theorem placeCode_cfg (code : Code) (s : State) : (placeCode code s).cfg = some (s.cfg.getD vehicle) := by
  cases code <;> rfl
@[simp] theorem placeCode_inputs (code : Code) (s : State) :
    (placeCode code s).inputs = .event code :: s.inputs := by
  cases code <;> rfl
@[simp] theorem placeCode_records (code : Code) (s : State) : (placeCode code s).records = s.records := by
  cases code <;> rfl

@[simp] theorem cmd_zero_fx : Cmd.zero.fx = 0 := rfl
@[simp] theorem cmd_zero_fy : Cmd.zero.fy = 0 := rfl
@[simp] theorem cmd_zero_tau : Cmd.zero.tau = 0 := rfl
@[simp] theorem cmd_zero_fz : Cmd.zero.fz = 0 := rfl
@[simp] theorem cmd_zero_tp : Cmd.zero.tp = 0 := rfl

end Sys2Proof.Machine
end

