-- ==== Sys2Proof/Laws/Ops.lean ====
section
/-! SUPPORT. What each shared operation can do, said once; the lemmas about instructions cite these. -/

namespace Sys2Proof.Machine

@[simp] theorem andThen_next (s : State) (f : State → Host.Outcome State Fault Refusal) :
    andThen (.next s) f = f s := rfl
@[simp] theorem andThen_fault (r : Fault) (f : State → Host.Outcome State Fault Refusal) :
    andThen (.fault r) f = .fault r := rfl
@[simp] theorem andThen_refused (r : Refusal) (f : State → Host.Outcome State Fault Refusal) :
    andThen (.refused r) f = .refused r := rfl

/-- A sequence answers a next state only through a next state of its first part. -/
theorem andThen_eq_next {o : Host.Outcome State Fault Refusal} {f : State → Host.Outcome State Fault Refusal} {t : State} :
    andThen o f = .next t ↔ ∃ s, o = .next s ∧ f s = .next t := by
  cases o <;> simp

/-- DECODE's command on a payload of at least six bytes (R75). -/
theorem decodeCmd_six (c : Cfg) (b0 b1 b2 b3 b4 b5 : Byte) (rest : List Byte) :
    decodeCmd c (b0 :: b1 :: b2 :: b3 :: b4 :: b5 :: rest) = some
      { fx  := signedOperand b0 (bitOf b5 0) c.tSurge
        fy  := signedOperand b1 (bitOf b5 1) c.tSway
        tau := signedOperand b3 (bitOf b5 3) c.tYaw
        fz  := signedOperand b4 (bitOf b5 4) c.tHeave
        tp  := signedOperand b2 (bitOf b5 2) c.tPitch } := rfl

/-- DECODE's command on a frame's own bytes (R75). -/
theorem decodeCmd_bytes (c : Cfg) (f : Frame) :
    decodeCmd c f.bytes = some
      { fx  := signedOperand f.surgeMag f.negSurge c.tSurge
        fy  := signedOperand f.swayMag f.negSway c.tSway
        tau := signedOperand f.yawMag f.negYaw c.tYaw
        fz  := signedOperand f.heaveMag f.negHeave c.tHeave
        tp  := signedOperand f.pitchMag f.negPitch c.tPitch } := by
  simp [Frame.bytes, decodeCmd_six]

/-- A cycle starts in a configured, idle block. -/
theorem beginCycle_ready {s : State} {c : Cfg} (h : s.Ready c) (st : Status) (i : Option Nat) (p : List Byte) :
    beginCycle st i p s = .next { s with cyc := some (CycleValues.fresh st i p) } := by
  simp [beginCycle, h.1, h.2]

/-- A cycle starts in no other block. -/
theorem beginCycle_eq_next {s t : State} {st : Status} {i : Option Nat} {p : List Byte}
    (h : beginCycle st i p s = .next t) :
    ∃ c, s.Ready c ∧ t = { s with cyc := some (CycleValues.fresh st i p) } := by
  unfold beginCycle at h
  split at h
  · cases h
  · cases h
  · rename_i c hc hy
    cases h
    exact ⟨c, ⟨hc, hy⟩, rfl⟩

theorem inCycle_running {s : State} {c : Cfg} {y : CycleValues} (h : s.Running c y)
    (f : Cfg → CycleValues → Host.Outcome State Fault Refusal) : inCycle s f = f c y := by
  simp [inCycle, h.1, h.2]

theorem inCycle_eq_next {s t : State} {f : Cfg → CycleValues → Host.Outcome State Fault Refusal}
    (h : inCycle s f = .next t) : ∃ c y, s.Running c y ∧ f c y = .next t := by
  unfold inCycle at h
  split at h
  · cases h
  · cases h
  · rename_i c y hc hy
    exact ⟨c, y, ⟨hc, hy⟩, h⟩

/-- The schedule on a cycle just begun (R107): if DECODE leaves `m` in the command register, the one record is that of `m`,
no in-cycle value survives, and nothing else changes. -/
theorem runSchedule_fresh {s : State} {c : Cfg} {st : Status} {i : Option Nat} {p : List Byte} {m : Cmd}
    (hc : s.cfg = some c) (hy : s.cyc = some (CycleValues.fresh st i p))
    (hd : opDecode s = .next { s with cmd := m }) :
    runSchedule s = .next { s with cmd := m, cyc := none, records := s.records ++ [outOf c m st i] } := by
  simp only [runSchedule, hd, andThen_next, opMixh, opMixv, opSath, opSatv, opEmit, inCycle, hc, hy]
  rfl

theorem opDecode_fresh_ok {s : State} {c : Cfg} {i : Option Nat} {p : List Byte} {m : Cmd}
    (hc : s.cfg = some c) (hy : s.cyc = some (CycleValues.fresh .ok i p)) (hm : decodeCmd c p = some m) :
    opDecode s = .next { s with cmd := m } := by
  simp [opDecode, inCycle, hc, hy, hm]

theorem opDecode_fresh_skipped {s : State} {c : Cfg} {st : Status} {i : Option Nat} {p : List Byte}
    (hc : s.cfg = some c) (hy : s.cyc = some (CycleValues.fresh st i p)) (hst : st ≠ .ok) :
    opDecode s = .next { s with cmd := s.cmd } := by
  cases st with
  | ok => exact absurd rfl hst
  | incomplete => simp [opDecode, inCycle, hc, hy]
  | malformed => simp [opDecode, inCycle, hc, hy]

/-- A whole cycle from a configured, idle block, given what its DECODE position leaves in the command register. -/
theorem beginCycle_runSchedule {s : State} {c : Cfg} (h : s.Ready c) {st : Status} {i : Option Nat} {p : List Byte}
    {m : Cmd} (hd : opDecode { s with cyc := some (CycleValues.fresh st i p) } =
      .next { s with cyc := some (CycleValues.fresh st i p), cmd := m }) :
    andThen (beginCycle st i p s) runSchedule = .next { s with cmd := m, records := s.records ++ [outOf c m st i] } := by
  rw [beginCycle_ready h, andThen_next,
    runSchedule_fresh (s := { s with cyc := some (CycleValues.fresh st i p) }) h.1 rfl hd]
  obtain ⟨cmd, cfg, cyc, inputs, records⟩ := s
  obtain ⟨-, hy⟩ := h
  cases hy
  rfl

/-- A whole cycle of either non-OK class: the retained command's record, and nothing else. -/
theorem beginCycle_runSchedule_skipped {s : State} {c : Cfg} (h : s.Ready c) {st : Status} (hst : st ≠ .ok)
    (i : Option Nat) (p : List Byte) :
    andThen (beginCycle st i p s) runSchedule = .next { s with records := s.records ++ [outOf c s.cmd st i] } :=
  beginCycle_runSchedule h (opDecode_fresh_skipped (s := { s with cyc := some (CycleValues.fresh st i p) }) h.1 rfl hst)

/-- A whole OK cycle on a payload that DECODE reads as `m`. -/
theorem beginCycle_runSchedule_ok {s : State} {c : Cfg} (h : s.Ready c) {p : List Byte} {m : Cmd}
    (hm : decodeCmd c p = some m) :
    andThen (beginCycle .ok none p s) runSchedule =
      .next { s with cmd := m, records := s.records ++ [outOf c m .ok none] } :=
  beginCycle_runSchedule h (opDecode_fresh_ok (s := { s with cyc := some (CycleValues.fresh .ok none p) }) h.1 rfl hm)

/-- A whole cycle answers a next state in no other block. -/
theorem beginCycle_andThen_eq_next {s t : State} {st : Status} {i : Option Nat} {p : List Byte}
    {f : State → Host.Outcome State Fault Refusal} (h : andThen (beginCycle st i p s) f = .next t) :
    ∃ c, s.Ready c := by
  obtain ⟨u, hu, -⟩ := andThen_eq_next.mp h
  obtain ⟨c, hr, -⟩ := beginCycle_eq_next hu
  exact ⟨c, hr⟩

/-- What a host move that is not an event can do: an installation answers a next state only in an unconfigured block. -/
theorem installCfg_eq_next {r : RawCfg} {s t : State} (h : installCfg r s = .next t) :
    ∃ c, s.cfg = none ∧ validate r = .ok c ∧ t = { resetEvent s with cfg := some c } := by
  unfold installCfg raiseConfigError at h
  split at h
  · cases h
  · rename_i hn
    split at h
    · rename_i c hv
      cases h
      exact ⟨c, hn, hv, rfl⟩
    · cases h

/-- A list of lists is a matrix of a shape exactly when it is that matrix's rows. -/
theorem mapM_ofList?_eq_some {n : Nat} {l : List (List Scalar)} {v : List (Vec Scalar n)} :
    l.mapM (Vec.ofList? n) = some v ↔ l = v.map Vec.toList := by
  induction l generalizing v with
  | nil => cases v <;> simp
  | cons a as ih =>
    simp only [List.mapM_cons, Option.bind_eq_bind, Option.pure_def, Option.bind_eq_some_iff, Option.some.injEq]
    constructor
    · rintro ⟨w, hw, ws, hws, rfl⟩
      rw [Vec.ofList?_eq_some] at hw
      rw [ih] at hws
      simp [hw, hws]
    · intro h
      cases v with
      | nil => cases h
      | cons w ws =>
        simp only [List.map_cons, List.cons.injEq] at h
        exact ⟨w, Vec.ofList?_eq_some.mpr h.1, ws, ih.mpr h.2, rfl⟩

theorem matrix_eq_some {n k : Nat} {l : List (List Scalar)} {m : Vec (Vec Scalar k) n} :
    (l.mapM (Vec.ofList? k)).bind (Vec.ofList? n) = some m ↔ l = m.toList.map Vec.toList := by
  rw [Option.bind_eq_some_iff]
  constructor
  · rintro ⟨v, hv, hm⟩
    rw [mapM_ofList?_eq_some] at hv
    rw [Vec.ofList?_eq_some] at hm
    rw [hv, hm]
  · intro h
    exact ⟨m.toList, mapM_ofList?_eq_some.mpr h, Vec.ofList?_eq_some.mpr rfl⟩

/-- Validation accepts exactly the raw forms of configurations, and answers that configuration (R145 (2)). -/
theorem validate_eq_ok {r : RawCfg} {c : Cfg} : validate r = .ok c ↔ r = rawOf c := by
  unfold validate
  constructor
  · intro h
    split at h
    · cases h
    · rename_i mh hmh
      split at h
      · cases h
      · rename_i mv hmv
        split at h
        · split at h
          · cases h
            rw [matrix_eq_some] at hmh hmv
            cases r
            simp_all [rawOf]
          · cases h
        · cases h
  · rintro rfl
    have e1 : ((rawOf c).mh.mapM (Vec.ofList? 3)).bind (Vec.ofList? 4) = some c.mh := matrix_eq_some.mpr rfl
    have e2 : ((rawOf c).mv.mapM (Vec.ofList? 2)).bind (Vec.ofList? 2) = some c.mv := matrix_eq_some.mpr rfl
    have h1 : 0 < (rawOf c).limH := c.limH.property
    have h2 : 0 < (rawOf c).limV := c.limV.property
    simp only [e1, e2, h1, h2, dif_pos]
    rfl

/-- The neutral command is in range under every configuration (R25). -/
theorem zero_inRange (c : Cfg) : Cmd.zero.InRange c := by
  constructor <;> exact ⟨0, false, by decide, by simp [signedOperand, applySign, scale, num, Cmd.zero]⟩

/-- Everything a step that answers a next state can have been. -/
theorem step_cases {s t : State} (h : step s = .next t) :
    (s.inputs = [] ∧ t = s) ∨
    (∃ code rest i, s.inputs = .event code :: rest ∧ decode code = .ok i ∧ exec i { s with inputs := rest } = .next t) ∨
    (∃ r rest c, s.inputs = .install r :: rest ∧ s.cfg = none ∧ validate r = .ok c ∧
      t = { resetEvent { s with inputs := rest } with cfg := some c }) ∨
    (∃ rest, s.inputs = .reset :: rest ∧ t = resetEvent { s with inputs := rest }) := by
  unfold step takeInput at h
  cases hs : s.inputs with
  | nil => simp [hs] at h; exact .inl ⟨rfl, h.symm⟩
  | cons x rest =>
    cases x with
    | event code =>
      simp only [hs] at h
      cases hd : decode code with
      | ok i => simp only [hd] at h; exact .inr (.inl ⟨code, rest, i, rfl, hd, h⟩)
      | error e => cases e; simp [hd] at h
    | install r =>
      simp only [hs] at h
      obtain ⟨c, hn, hv, rfl⟩ := installCfg_eq_next h
      exact .inr (.inr (.inl ⟨r, rest, c, rfl, hn, hv, rfl⟩))
    | reset =>
      simp only [hs] at h
      cases h
      exact .inr (.inr (.inr ⟨rest, rfl, rfl⟩))

end Sys2Proof.Machine
end

