-- ==== Sys2Proof/Laws/PerInstr.lean ====
section
/-! SUPPORT. One lemma per constructor of Instr: the format of its encoding (spec/30_encoding.md R56, R61, R66). -/

namespace Sys2Proof.Laws.CodeFormat

/-- A well-formed frame operation is encoded by a payload of at most six bytes, a micro-operation by a schedule number below 6. -/
def Statement (i : Instr) : Prop :=
  i.wf = true →
    match encode i with
    | .frame p => p.length ≤ frameLen
    | .sched k => k.toNat < 6

theorem frameOk (f : Frame) : Statement (.frameOk f) := fun _ => by simp [encode, Frame.bytes, frameLen]
theorem frameIncomplete (n : Nat) : Statement (.frameIncomplete n) := fun h => by
  simp [Instr.wf] at h; simp [encode, frameLen]; omega
theorem frameMalformed (off : Nat) : Statement (.frameMalformed off) := fun h => by
  simp [Instr.wf] at h; simp [encode, frameLen]; omega
theorem decode : Statement .decode := fun _ => by simp [encode]
theorem mixh : Statement .mixh := fun _ => by simp [encode]
theorem mixv : Statement .mixv := fun _ => by simp [encode]
theorem sath : Statement .sath := fun _ => by simp [encode]
theorem satv : Statement .satv := fun _ => by simp [encode]
theorem emit : Statement .emit := fun _ => by simp [encode]

end Sys2Proof.Laws.CodeFormat
end

