-- ==== Sys2Proof/Laws/Run.lean ====
section
/-! SUPPORT. Runs of several steps: one lemma for going on, one for what a run that answers a next state was. -/

namespace Sys2Proof.Machine

theorem run_zero (s : State) : Sys2Proof.core.run 0 s = .next s := rfl

theorem coreRun_succ (m : Host.Core) (n : Nat) (s : m.State) :
    m.run (n + 1) s =
      match m.step s with
      | .next s' => m.run n s'
      | .fault r => .fault r
      | .refused r => .refused r := rfl

theorem run_succ {s u : State} (n : Nat) (h : step s = .next u) :
    Sys2Proof.core.run (n + 1) s = Sys2Proof.core.run n u := by
  have h' : Sys2Proof.core.step s = .next u := h
  exact (coreRun_succ Sys2Proof.core n s).trans (by rw [h'])

theorem run_succ_eq_next {s t : State} {n : Nat} (h : Sys2Proof.core.run (n + 1) s = .next t) :
    ∃ u : State, step s = .next u ∧ Sys2Proof.core.run n u = .next t := by
  have hr := (coreRun_succ Sys2Proof.core n s).symm.trans h
  cases hs : step s with
  | next u => exact ⟨u, rfl, (run_succ n hs).symm.trans h⟩
  | fault r =>
    have h' : Sys2Proof.core.step s = .fault r := hs
    rw [h'] at hr
    cases hr
  | refused r =>
    have h' : Sys2Proof.core.step s = .refused r := hs
    rw [h'] at hr
    cases hr

end Sys2Proof.Machine
end

