-- ==== Sys2Proof/Tests/Slice0.lean ====
section
/-! SUPPORT. Small tests; expected values are written out from spec/30_encoding.md R56 and spec/95_test_vectors.md
(the vector's name stands at each test), and one witness for the hypotheses of each statement that has any. -/

-- One theorem after another: the kernel evaluations below need no thread each.
set_option Elab.async false

namespace Sys2Proof.Tests

open Sys2Proof Sys2Proof.Machine

/-! ### WellFormed: an ill-formed term for each check, refused -/

theorem test_wf_refuses_surge_255 : Frame.wf ⟨255, 0, 0, 0, 0, false, false, false, false, false, 0⟩ = false := by decide
theorem test_wf_refuses_sway_255 : Frame.wf ⟨0, 255, 0, 0, 0, false, false, false, false, false, 0⟩ = false := by decide
theorem test_wf_refuses_pitch_255 : Frame.wf ⟨0, 0, 255, 0, 0, false, false, false, false, false, 0⟩ = false := by decide
theorem test_wf_refuses_yaw_255 : Frame.wf ⟨0, 0, 0, 255, 0, false, false, false, false, false, 0⟩ = false := by decide
theorem test_wf_refuses_heave_255 : Frame.wf ⟨0, 0, 0, 0, 255, false, false, false, false, false, 0⟩ = false := by decide
theorem test_wf_refuses_sign_255 : Frame.wf ⟨0, 0, 0, 0, 0, true, true, true, true, true, 7⟩ = false := by decide
theorem test_wf_takes_sign_254 : Frame.wf ⟨0, 0, 0, 0, 0, false, true, true, true, true, 7⟩ = true := by decide
theorem test_wf_refuses_length_6 : Instr.wf (.frameIncomplete 6) = false := by decide
theorem test_wf_refuses_offset_6 : Instr.wf (.frameMalformed 6) = false := by decide

/-! ### Decoding: one word for each constructor, written out from R56 and R61 -/

/-- D8: [100,50,25,200,10,10], byte 5 = bits 1 and 3. -/
theorem test_decode_frame_ok : decode (.frame [100, 50, 25, 200, 10, 0b00001010]) =
    .ok (.frameOk ⟨100, 50, 25, 200, 10, false, true, false, true, false, 0⟩) := by decide
/-- X10 and R58: bits 7:5 of byte 5 go to `ign`, the negate bits to their own names. -/
theorem test_decode_frame_ok_ign : decode (.frame [127, 127, 0, 0, 0, 0b10110001]) =
    .ok (.frameOk ⟨127, 127, 0, 0, 0, true, false, false, false, true, 0b101⟩) := by decide
/-- X9: the 255 at offset 7 is not looked at. -/
theorem test_decode_frame_long : decode (.frame [127, 127, 0, 0, 0, 2, 77, 255, 3]) =
    .ok (.frameOk ⟨127, 127, 0, 0, 0, false, true, false, false, false, 0⟩) := by decide
/-- X5: the length is tested first. -/
theorem test_decode_frame_incomplete : decode (.frame [255]) = .ok (.frameIncomplete 1) := by decide
/-- X8: the least offset. -/
theorem test_decode_frame_malformed : decode (.frame [255, 255, 0, 0, 0, 0]) = .ok (.frameMalformed 0) := by decide
theorem test_decode_sched_decode : decode (.sched 0b000) = .ok .decode := by decide
theorem test_decode_sched_mixh : decode (.sched 0b001) = .ok .mixh := by decide
theorem test_decode_sched_mixv : decode (.sched 0b010) = .ok .mixv := by decide
theorem test_decode_sched_sath : decode (.sched 0b011) = .ok .sath := by decide
theorem test_decode_sched_satv : decode (.sched 0b100) = .ok .satv := by decide
theorem test_decode_sched_emit : decode (.sched 0b101) = .ok .emit := by decide
theorem test_decode_sched_reserved : decode (.sched 0b110) = .error (.reservedStep 6) := by decide
/-- X7: the word W of [9,9,9,9,9,255]. -/
theorem test_word_of_bytes : wordOfBytes [9, 9, 9, 9, 9, 255] = 0xFF0909090909 := by decide

/-! ### States for the tests: the spec's own test configuration T1 (92_eei_decisions.md D18), not the vehicle's values -/

def t1 : Cfg where
  mh     := ⟨[⟨[1/4, 1/4, 1/4], rfl⟩, ⟨[1/4, -1/4, -1/4], rfl⟩, ⟨[-1/4, 1/4, -1/4], rfl⟩, ⟨[-1/4, -1/4, 1/4], rfl⟩], rfl⟩
  mv     := ⟨[⟨[1/2, 1/2], rfl⟩, ⟨[1/2, -1/2], rfl⟩], rfl⟩
  limH   := ⟨255, by norm_num⟩
  limV   := ⟨255, by norm_num⟩
  tSurge := 1023
  tSway  := 1023
  tYaw   := 1023
  tPitch := 510
  tHeave := 255

/-- Idle under T1, with a command, the records of a run and the host's moves. -/
def idle (m : Cmd) (os : List Out) (xs : List Input) : State := ⟨m, some t1, none, xs, os⟩

/-- Inside a cycle under T1. -/
def running (m : Cmd) (y : CycleValues) : State := ⟨m, some t1, some y, [], []⟩

def event (p : List Byte) : Input := .event (.frame p)

/-- The newest record and the command of a next state. -/
def result (o : Host.Outcome State Fault Refusal) : Option (Cmd × Option Out) :=
  match o with
  | .next s => some (s.cmd, s.records.getLast?)
  | .fault _ => none
  | .refused _ => none

/-- The in-cycle values of a next state. -/
def cycleOf (o : Host.Outcome State Fault Refusal) : Option CycleValues :=
  match o with
  | .next s => s.cyc
  | .fault _ => none
  | .refused _ => none

/-- Whether an outcome is a given fault. -/
def faultOf (o : Host.Outcome State Fault Refusal) : Option Fault :=
  match o with
  | .next _ => none
  | .fault r => some r
  | .refused _ => none

/-- Whether an outcome is a next state. -/
def isNext (o : Host.Outcome State Fault Refusal) : Bool :=
  match o with
  | .next _ => true
  | .fault _ => false
  | .refused _ => false

/-! ### One step each -/

/-- C4: [127,0,254,0,254,0], one group scaled and the other not. -/
theorem test_frame_ok_c4 : result (step (idle Cmd.zero [] [event [127, 0, 254, 0, 254, 0]])) =
    some (⟨1023/2, 0, 0, 255, 510⟩, some ⟨.ok, none,
      ⟨[1023/8, 1023/8, -1023/8, -1023/8], rfl⟩, ⟨[255, -85], rfl⟩⟩) := by decide +kernel
/-- P4 step 3: [254,254,254,254,254,31], both groups scaled by different factors. -/
theorem test_frame_ok_p4 : result (step (idle Cmd.zero [] [event [254, 254, 254, 254, 254, 31]])) =
    some (⟨-1023, -1023, -1023, -255, -510⟩, some ⟨.ok, none,
      ⟨[-255, 85, 85, 85], rfl⟩, ⟨[-255, 85], rfl⟩⟩) := by decide +kernel
/-- P1 step 3: [254,254,0] after (1023, 1023, 0, 0, 0). -/
theorem test_frame_incomplete_p1 : result (step (idle ⟨1023, 1023, 0, 0, 0⟩ [] [event [254, 254, 0]])) =
    some (⟨1023, 1023, 0, 0, 0⟩, some ⟨.incomplete, some 3, ⟨[255, 0, 0, -255], rfl⟩, ⟨[0, 0], rfl⟩⟩) := by decide +kernel
/-- E1: the empty payload after reset. -/
theorem test_frame_incomplete_e1 : result (step (idle Cmd.zero [] [event []])) =
    some (Cmd.zero, some ⟨.incomplete, some 0, ⟨[0, 0, 0, 0], rfl⟩, ⟨[0, 0], rfl⟩⟩) := by decide +kernel
/-- P3 step 5: [9,9,9,9,9,255] after (511.5, -511.5, 0, 0, 0). -/
theorem test_frame_malformed_p3 : result (step (idle ⟨1023/2, -1023/2, 0, 0, 0⟩ [] [event [9, 9, 9, 9, 9, 255]])) =
    some (⟨1023/2, -1023/2, 0, 0, 0⟩, some ⟨.malformed, some 5, ⟨[0, 255, -255, 0], rfl⟩, ⟨[0, 0], rfl⟩⟩) := by
  decide +kernel
/-- C6: [0,0,0,0,255,0] after reset. -/
theorem test_frame_malformed_c6 : result (step (idle Cmd.zero [] [event [0, 0, 0, 0, 255, 0]])) =
    some (Cmd.zero, some ⟨.malformed, some 4, ⟨[0, 0, 0, 0], rfl⟩, ⟨[0, 0], rfl⟩⟩) := by decide +kernel
/-- D15: 229 = bits 0, 2, 5, 6, 7. -/
theorem test_decode_d15 : result (exec .decode (running Cmd.zero (CycleValues.fresh .ok none [10, 20, 30, 40, 50, 229]))) =
    some (⟨-5115/127, 10230/127, 20460/127, 6375/127, -7650/127⟩, none) := by decide +kernel
/-- D5: one step of the byte, no truncation. -/
theorem test_decode_d5 : result (exec .decode (running Cmd.zero (CycleValues.fresh .ok none [1, 1, 1, 1, 1, 0]))) =
    some (⟨1023/254, 1023/254, 1023/254, 255/254, 255/127⟩, none) := by decide +kernel
/-- M8: each lane separates the columns. -/
theorem test_mixh_m8 : (cycleOf (exec .mixh (running ⟨1, 2, 4, 0, 0⟩ (CycleValues.fresh .ok none [])))).bind CycleValues.rh =
    some ⟨[7/4, -5/4, -3/4, 1/4], rfl⟩ := by decide +kernel
/-- M7: mixed signs. -/
theorem test_mixh_m7 : (cycleOf (exec .mixh (running ⟨1023/2, -1023/2, 1023, 9, 9⟩ (CycleValues.fresh .ok none [])))).bind
    CycleValues.rh = some ⟨[1023/4, 0, -1023/2, 1023/4], rfl⟩ := by decide +kernel
/-- M15. -/
theorem test_mixv_m15 : (cycleOf (exec .mixv (running ⟨9, 9, 9, 1, 3⟩ (CycleValues.fresh .ok none [])))).bind CycleValues.rv =
    some ⟨[2, -1], rfl⟩ := by decide +kernel
/-- M14. -/
theorem test_mixv_m14 : (cycleOf (exec .mixv (running ⟨0, 0, 0, -255, 510⟩ (CycleValues.fresh .ok none [])))).bind
    CycleValues.rv = some ⟨[255/2, -765/2], rfl⟩ := by decide +kernel
/-- S6: proportions 3 to 1 kept. -/
theorem test_sath_s6 : (cycleOf (exec .sath (running Cmd.zero
    ⟨[], .ok, none, some ⟨[3069/4, -1023/4, -1023/4, 1023/4], rfl⟩, none, none, none⟩))).bind CycleValues.h =
    some ⟨[255, -85, -85, 85], rfl⟩ := by decide +kernel
/-- S2: a maximum equal to the limit does not exceed it. -/
theorem test_sath_s2 : (cycleOf (exec .sath (running Cmd.zero
    ⟨[], .ok, none, some ⟨[255, 255, -255, -255], rfl⟩, none, none, none⟩))).bind CycleValues.h =
    some ⟨[255, 255, -255, -255], rfl⟩ := by decide +kernel
/-- S7: not a per-channel clamp, which would give (255, 255). -/
theorem test_satv_s7 : (cycleOf (exec .satv (running Cmd.zero
    ⟨[], .ok, none, none, some ⟨[600, 300], rfl⟩, none, none⟩))).bind CycleValues.v =
    some ⟨[255, 255/2], rfl⟩ := by decide +kernel
/-- S8: the maximum is a negative element. -/
theorem test_satv_s8 : (cycleOf (exec .satv (running Cmd.zero
    ⟨[], .ok, none, none, some ⟨[100, -600], rfl⟩, none, none⟩))).bind CycleValues.v =
    some ⟨[85/2, -255], rfl⟩ := by decide +kernel
/-- R112: the record carries the cycle's status and info, and the horizontal group is not taken for the vertical. -/
theorem test_emit : result (exec .emit (running Cmd.zero
    ⟨[], .incomplete, some 3, none, none, some ⟨[1, 2, 3, 4], rfl⟩, some ⟨[5, 6], rfl⟩⟩)) =
    some (Cmd.zero, some ⟨.incomplete, some 3, ⟨[1, 2, 3, 4], rfl⟩, ⟨[5, 6], rfl⟩⟩) := by decide +kernel
/-- R107, R112: the cycle is over after EMIT. -/
theorem test_emit_ends_cycle : cycleOf (exec .emit (running Cmd.zero
    ⟨[], .ok, none, none, none, some ⟨[1, 2, 3, 4], rfl⟩, some ⟨[5, 6], rfl⟩⟩)) = none := by decide +kernel

/-! ### The host's other moves -/

/-- E4: LIM_H = 0 is refused. -/
theorem test_install_e4 : faultOf (step { State.unconfigured with inputs := [.install { rawOf t1 with limH := 0 }] }) =
    some (.configError .limitH) := by decide +kernel
/-- E5: LIM_V = -255 is refused. -/
theorem test_install_e5 : faultOf (step { State.unconfigured with inputs := [.install { rawOf t1 with limV := -255 }] }) =
    some (.configError .limitV) := by decide +kernel
/-- R145: T1 is installed. -/
theorem test_install_t1 : isNext (step { State.unconfigured with inputs := [.install (rawOf t1)] }) = true := by decide +kernel

/-! ### A table word runs as the first step after reset -/

theorem test_fetch_frame : isNext (step (State.reset.withFetchWord 48 0x00000000007F)) = true := by decide
theorem test_fetch_decode : isNext (step (State.reset.withFetchWord 8 0)) = true := by decide
theorem test_fetch_mixh : isNext (step (State.reset.withFetchWord 8 1)) = true := by decide
theorem test_fetch_mixv : isNext (step (State.reset.withFetchWord 8 2)) = true := by decide
theorem test_fetch_sath : isNext (step (State.reset.withFetchWord 8 3)) = true := by decide
theorem test_fetch_satv : isNext (step (State.reset.withFetchWord 8 4)) = true := by decide
theorem test_fetch_emit : isNext (step (State.reset.withFetchWord 8 5)) = true := by decide

/-! ### Witnesses: a state and operands that meet all the hypotheses of each statement -/

def f254 : Frame := ⟨254, 254, 254, 254, 254, true, true, true, true, true, 6⟩
def f0 : Frame := ⟨0, 0, 0, 0, 0, false, false, false, false, false, 7⟩
def surgeCmd : Cmd := ⟨1023, 0, 0, 0, 0⟩
def yFresh : CycleValues := CycleValues.fresh .ok none [1, 2, 3, 4, 5, 6]
def yFull : CycleValues := ⟨[], .ok, none, some ⟨[1, 2, 3, 4], rfl⟩, some ⟨[5, 6], rfl⟩, some ⟨[1, 2, 3, 4], rfl⟩, some ⟨[5, 6], rfl⟩⟩
/-- Another configuration: T1 with everything vertical changed, and with everything horizontal changed. -/
def t1v : Cfg := { t1 with mv := ⟨[⟨[1, 0], rfl⟩, ⟨[0, 1], rfl⟩], rfl⟩, limV := ⟨7, by norm_num⟩, tHeave := 3, tPitch := 4 }
def t1h : Cfg := { t1 with limH := ⟨7, by norm_num⟩, tSurge := 1, tSway := 2, tYaw := 3 }

/-- A state of a run with no record yet, whatever frames the host has yet to present. -/
theorem idle_inv (ps : List (List Byte)) : (idle Cmd.zero [] (frameInputs ps)).Inv where
  quietUnconfigured h := by cases h
  quietStart _ := rfl
  idle := rfl
  cmdInRange c _ := zero_inRange c
  recordsGood c _ o ho := by simp [Tests.idle] at ho
  lastRecord c o _ ho := by simp [Tests.idle] at ho
  hostMoves x hx := by
    obtain ⟨p, -, rfl⟩ := List.mem_map.mp hx
    rfl

/-- A state of a run with one record: vector C1. -/
theorem idle_inv_c1 : (idle surgeCmd [outOf t1 surgeCmd .ok none] []).Inv where
  quietUnconfigured h := by cases h
  quietStart h := by cases h
  idle := rfl
  cmdInRange c h := by
    cases h
    exact ⟨⟨254, false, by decide, by decide +kernel⟩, ⟨0, false, by decide, by decide +kernel⟩,
      ⟨0, false, by decide, by decide +kernel⟩, ⟨0, false, by decide, by decide +kernel⟩,
      ⟨0, false, by decide, by decide +kernel⟩⟩
  recordsGood c h o ho := by
    cases h
    obtain rfl := List.mem_singleton.mp ho
    refine ⟨⟨?_, ?_⟩, rfl⟩ <;> decide +kernel
  lastRecord c o h ho := by
    cases h
    have ho : some (outOf t1 surgeCmd .ok none) = some o := ho
    cases ho
    rfl
  hostMoves x hx := by simp [Tests.idle] at hx

theorem witness_StepRunsDecodedInstruction :
    (idle Cmd.zero [] [event [1, 2, 3]]).inputs = .event (.frame [1, 2, 3]) :: [] ∧
      decode (.frame [1, 2, 3]) = .ok (.frameIncomplete 3) := by decide
theorem witness_IdleStepChangesNothing : State.reset.inputs = [] := rfl
theorem witness_DecodeOfEncodeIsInstruction :
    Instr.wf (.frameOk f254) = true ∧ Instr.wf (.frameOk f0) = true ∧ Instr.wf (.frameIncomplete 0) = true ∧
      Instr.wf (.frameIncomplete 5) = true ∧ Instr.wf (.frameMalformed 0) = true ∧
      Instr.wf (.frameMalformed 5) = true ∧ Instr.wf .emit = true := by decide
theorem witness_FrameWordDecodesToFrame : f254.wf = true ∧ f0.wf = true := by decide
theorem witness_DecodedInstructionIsWellFormed :
    decode (.frame [255, 0, 0, 0, 0, 0]) = .ok (.frameMalformed 0) ∧ decode (.sched 5) = .ok .emit := by decide
theorem witness_OnlyReservedStepsAreRejected :
    decode (.sched 6) = .error (.reservedStep 6) ∧ decode (.sched 7) = .error (.reservedStep 7) := by decide
/-- Each arm at the ends of its range: lengths 0, 5 and 6, offsets 0 and 5. -/
theorem witness_FrameEventIsClassified :
    ([] : List Byte).length < 6 ∧ ([1, 2, 3, 4, 5] : List Byte).length < 6 ∧
    (6 ≤ ([255, 0, 0, 0, 0, 0] : List Byte).length ∧ ([255, 0, 0, 0, 0, 0] : List Byte)[0]? = some 255) ∧
    (([0, 0, 0, 0, 0, 255] : List Byte)[5]? = some 255 ∧ ∀ k < 5, ([0, 0, 0, 0, 0, 255] : List Byte)[k]? ≠ some 255) ∧
    ∀ k < 6, ([254, 254, 254, 254, 254, 254] : List Byte)[k]? ≠ some 255 := by decide
theorem witness_ExtraBytesAreIgnored : 6 ≤ ([127, 127, 0, 0, 0, 2, 77, 255, 3] : List Byte).length := by decide
theorem witness_DecodeWritesAllFiveFields : (running Cmd.zero yFresh).Running t1 yFresh ∧ yFresh.status = .ok ∧
    yFresh.payload = [1, 2, 3, 4, 5, 6] := ⟨⟨rfl, rfl⟩, rfl, rfl⟩
theorem witness_DecodeIsSkippedUnlessOk :
    ((running Cmd.zero (CycleValues.fresh .incomplete (some 3) [])).Running t1 (CycleValues.fresh .incomplete (some 3) []) ∧
      (CycleValues.fresh .incomplete (some 3) []).status ≠ .ok) ∧
    (CycleValues.fresh .malformed (some 3) []).status ≠ .ok := ⟨⟨⟨rfl, rfl⟩, by decide⟩, by decide⟩
theorem witness_DecodeEndPointsAreExact : (idle Cmd.zero [] []).Ready t1 ∧
    (f254.surgeMag = 254 ∧ f254.swayMag = 254 ∧ f254.yawMag = 254 ∧ f254.heaveMag = 254 ∧ f254.pitchMag = 254) ∧
    (f0.surgeMag = 0 ∧ f0.swayMag = 0 ∧ f0.yawMag = 0 ∧ f0.heaveMag = 0 ∧ f0.pitchMag = 0) := by
  exact ⟨⟨rfl, rfl⟩, by decide, by decide⟩
/-- A frame that is OK before and after every toggle, one whose bit 0 makes byte 5 equal to 255, and changed bits 7:5. -/
theorem witness_EachSignBitNegatesOneField : (idle Cmd.zero [] []).Ready t1 ∧
    Frame.signByte ⟨0, 0, 0, 0, 0, true, true, true, true, true, 7⟩ = 255 ∧ f254.wf = true ∧
    Frame.wf { f254 with negSurge := !f254.negSurge } = true ∧ Frame.wf { f254 with negSway := !f254.negSway } = true ∧
    Frame.wf { f254 with negPitch := !f254.negPitch } = true ∧ Frame.wf { f254 with negYaw := !f254.negYaw } = true ∧
    Frame.wf { f254 with negHeave := !f254.negHeave } = true ∧ Frame.wf { f254 with ign := 0 } = true :=
  ⟨⟨rfl, rfl⟩, by decide⟩
/-- D13's sign byte 2 and X10's 226. -/
theorem witness_HighSignBitsAreIgnored : (2 : Byte) ≠ 255 ∧ (226 : Byte) ≠ 255 ∧
    ∀ k < 5, (2 : Byte).getLsbD k = (226 : Byte).getLsbD k := by decide
theorem witness_OnlyDecodeWritesCommand : isNext (exec .mixh (running surgeCmd yFresh)) = true ∧
    isNext (exec (.frameIncomplete 3) (idle surgeCmd [] [])) = true ∧ Instr.mixh ≠ .decode ∧
    Instr.frameIncomplete 3 ≠ .decode ∧ ∀ f, Instr.frameIncomplete 3 ≠ .frameOk f :=
  ⟨by decide, by decide, by decide, by decide, fun _ h => by cases h⟩
theorem witness_CommandStaysInRange : (idle Cmd.zero [] (frameInputs [[254, 0, 0, 0, 0, 1]])).Inv ∧
    (∃ t, step (idle Cmd.zero [] (frameInputs [[254, 0, 0, 0, 0, 1]])) = .next t ∧ t.cfg = some t1) ∧
    0 ≤ t1.tSurge ∧ 0 ≤ t1.tSway ∧ 0 ≤ t1.tYaw ∧ 0 ≤ t1.tHeave ∧ 0 ≤ t1.tPitch :=
  ⟨idle_inv _, ⟨_, rfl, rfl⟩, by decide +kernel⟩
theorem witness_MixhProducesRawHorizontal : (running surgeCmd yFresh).Running t1 yFresh := ⟨rfl, rfl⟩
theorem witness_MixvProducesRawVertical : (running surgeCmd yFresh).Running t1 yFresh := ⟨rfl, rfl⟩
theorem witness_SathProducesScaledHorizontal : (running surgeCmd yFull).Running t1 yFull ∧
    yFull.rh = some ⟨[1, 2, 3, 4], rfl⟩ := ⟨⟨rfl, rfl⟩, rfl⟩
theorem witness_SatvProducesScaledVertical : (running surgeCmd yFull).Running t1 yFull ∧
    yFull.rv = some ⟨[5, 6], rfl⟩ := ⟨⟨rfl, rfl⟩, rfl⟩
theorem witness_MaxNormIsLargestAbsoluteValue : ([-3] : List Scalar) ≠ [] := by decide
/-- A maximum above the limit, one equal to it, and a zero set: S12, S11, S1. -/
theorem witness_ScalerLaws : (2 : Scalar) < maxAbs [3, -4] ∧ maxAbs [3, -4] ≤ (4 : Scalar) ∧
    ∀ i, (⟨[0, 0, 0, 0], rfl⟩ : Vec Scalar 4).get i = 0 := by decide +kernel
theorem witness_EmitHandsOverRecord : (running surgeCmd yFull).Running t1 yFull ∧
    yFull.h = some ⟨[1, 2, 3, 4], rfl⟩ ∧ yFull.v = some ⟨[5, 6], rfl⟩ := ⟨⟨rfl, rfl⟩, rfl, rfl⟩
theorem witness_AdapterSeesSignAndMagnitude : (0 : Scalar) ≤ 0 ∧ (-1 / 1000 : Scalar) < 0 := by decide +kernel
theorem witness_FrameOkRunsWholeCycle : (idle surgeCmd [] []).Ready t1 ∧ Frame.surgeMag ⟨0, 0, 0, 0, 0, true, true, true, true, true, 0⟩ = 0 :=
  ⟨⟨rfl, rfl⟩, rfl⟩
theorem witness_FrameIncompleteKeepsCommand : (idle surgeCmd [] []).Ready t1 ∧ (idle Cmd.zero [] []).Ready t1 ∧
    (idle Cmd.zero [] []).cmd = ⟨0, 0, 0, 0, 0⟩ := ⟨⟨rfl, rfl⟩, ⟨rfl, rfl⟩, rfl⟩
theorem witness_FrameMalformedKeepsCommand : (idle surgeCmd [] []).Ready t1 := ⟨rfl, rfl⟩
/-- Without a record and with one. -/
theorem witness_NonOkFrameRepeatsRecord :
    ((idle Cmd.zero [] (frameInputs [])).Inv ∧ (idle Cmd.zero [] (frameInputs [])).records = []) ∧
    ((idle surgeCmd [outOf t1 surgeCmd .ok none] []).Inv ∧
      (idle surgeCmd [outOf t1 surgeCmd .ok none] []).cfg = some t1 ∧
      (idle surgeCmd [outOf t1 surgeCmd .ok none] []).records.getLast? = some (outOf t1 surgeCmd .ok none)) :=
  ⟨⟨idle_inv [], rfl⟩, idle_inv_c1, rfl, rfl⟩
theorem witness_FirstBadFrameEmitsZeros : ([1, 2, 3, 4, 5] : List Byte).length < 6 ∧
    ∃ k < 6, ([0, 0, 0, 0, 255, 0] : List Byte)[k]? = some 255 := ⟨by decide, 4, by decide, rfl⟩
theorem witness_BadFramesDoNotAccumulate :
    (idle surgeCmd [] (frameInputs [[254], [255, 0, 0, 0, 0, 0]])).Ready t1 ∧
    ∀ p ∈ ([[254], [255, 0, 0, 0, 0, 0]] : List (List Byte)), p.length < 6 ∨ ∃ k < 6, p[k]? = some 255 :=
  ⟨⟨rfl, rfl⟩, by decide⟩
theorem witness_StepIsTheSpecCycle : (idle surgeCmd [] [event [254]]).Ready t1 ∧
    (idle surgeCmd [] [event [254]]).inputs = .event (.frame [254]) :: [] := ⟨⟨rfl, rfl⟩, rfl⟩
theorem witness_RunIsTheSpecRun : (idle surgeCmd [] (frameInputs [[254], [1, 2, 3, 4, 5, 6]])).Ready t1 ∧
    (idle surgeCmd [] (frameInputs [[254], [1, 2, 3, 4, 5, 6]])).inputs = frameInputs [[254], [1, 2, 3, 4, 5, 6]] ++ [] :=
  ⟨⟨rfl, rfl⟩, by decide⟩
theorem witness_StepKeepsRunInvariant : (idle Cmd.zero [] (frameInputs [[254, 0, 0, 0, 0, 1]])).Inv ∧
    isNext (step (idle Cmd.zero [] (frameInputs [[254, 0, 0, 0, 0, 1]]))) = true := ⟨idle_inv _, by decide⟩
theorem witness_EveryRecordIsWithinLimits : (idle Cmd.zero [] (frameInputs [[254, 0, 0, 0, 0, 1]])).Inv ∧
    ∃ t : State, Sys2Proof.core.run 1 (idle Cmd.zero [] (frameInputs [[254, 0, 0, 0, 0, 1]])) = .next t ∧
      t.cfg = some t1 ∧ t.records ≠ [] := ⟨idle_inv _, _, rfl, rfl, by intro h; cases h⟩
theorem witness_FramesAndResetsNeverStopTheBlock : (idle Cmd.zero [] (frameInputs [[254], [1, 2, 3, 4, 5, 6]])).Inv ∧
    ∀ x ∈ (idle Cmd.zero [] (frameInputs [[254], [1, 2, 3, 4, 5, 6]])).inputs, x = .reset ∨ ∃ p, x = .event (.frame p) := by
  refine ⟨idle_inv _, fun x hx => .inr ?_⟩
  obtain ⟨p, -, rfl⟩ := List.mem_map.mp hx
  exact ⟨p, rfl⟩
theorem witness_ConfigurationIsNeverWritten : isNext (exec .mixh (running surgeCmd yFresh)) = true ∧
    (idle surgeCmd [] [.reset]).cfg = some t1 ∧ isNext (step (idle surgeCmd [] [.reset])) = true :=
  ⟨by decide, rfl, by decide⟩
theorem witness_ExecOnlyAppendsOneRecord : isNext (exec .mixh (running surgeCmd yFresh)) = true ∧
    isNext (exec .emit (running surgeCmd yFull)) = true := by decide
/-- Frames, configurations and commands that differ in everything vertical, and in everything horizontal but the matrix. -/
theorem witness_GroupsDoNotInterfere :
    (isNext (exec (.frameOk f254) ⟨⟨1, 2, 3, 4, 5⟩, some t1, none, [], []⟩) = true ∧
      isNext (exec (.frameOk { f254 with heaveMag := 1, pitchMag := 2, negHeave := false, negPitch := false })
        ⟨⟨1, 2, 3, 40, 50⟩, some t1v, none, [], []⟩) = true ∧
      isNext (exec (.frameOk { f254 with surgeMag := 1, swayMag := 2, yawMag := 3, negSurge := false, negSway := false, negYaw := false })
        ⟨⟨10, 20, 30, 4, 5⟩, some t1h, none, [], []⟩) = true) ∧
    (isNext (exec (.frameIncomplete 2) ⟨⟨1, 2, 3, 40, 50⟩, some t1v, none, [], []⟩) = true ∧
      isNext (exec (.frameMalformed 5) ⟨⟨10, 20, 30, 4, 5⟩, some t1h, none, [], []⟩) = true ∧
      Instr.isRetaining (.frameIncomplete 2) = true ∧ Instr.isRetaining (.frameMalformed 5) = true) ∧
    (t1.mh = t1v.mh ∧ t1.limH = t1v.limH ∧ t1.tSurge = t1v.tSurge ∧ t1.tSway = t1v.tSway ∧ t1.tYaw = t1v.tYaw) ∧
    (t1.mv = t1h.mv ∧ t1.limV = t1h.limV ∧ t1.tHeave = t1h.tHeave ∧ t1.tPitch = t1h.tPitch) ∧
    t1.limV ≠ t1v.limV ∧ t1.limH ≠ t1h.limH := by
  refine ⟨by decide, by decide, ⟨rfl, rfl, rfl, rfl, rfl⟩, ⟨rfl, rfl, rfl, rfl⟩, by decide +kernel, by decide +kernel⟩
/-- Equal commands with any payload; different commands with a payload that is OK. -/
theorem witness_CycleHasNoHiddenState : (idle surgeCmd [] [event [254]]).Ready t1 ∧
    (idle surgeCmd [outOf t1 surgeCmd .ok none] [event [254], .reset]).Ready t1 ∧
    (idle Cmd.zero [] [event [1, 2, 3, 4, 5, 6]]).Ready t1 ∧ (idle surgeCmd [] [event [1, 2, 3, 4, 5, 6]]).Ready t1 ∧
    6 ≤ ([1, 2, 3, 4, 5, 6] : List Byte).length ∧ ∀ k < 6, ([1, 2, 3, 4, 5, 6] : List Byte)[k]? ≠ some 255 :=
  ⟨⟨rfl, rfl⟩, ⟨rfl, rfl⟩, ⟨rfl, rfl⟩, ⟨rfl, rfl⟩, by decide, by decide⟩
theorem witness_ResetEventRestoresFirstUse : (idle surgeCmd [] [.reset]).inputs = .reset :: [] := rfl
theorem witness_ResetForgetsHistory :
    (idle surgeCmd [outOf t1 surgeCmd .ok none] (.reset :: frameInputs [[254]])).cfg = some t1 ∧
    (idle Cmd.zero [] (.reset :: frameInputs [[254]])).inputs = .reset :: frameInputs [[254]] := ⟨rfl, rfl⟩
theorem witness_InstallTakesExactlyValidConfigurations : State.unconfigured.cfg = none ∧
    ({ State.unconfigured with inputs := [.install (rawOf t1)] } : State).inputs = .install (rawOf t1) :: [] := ⟨rfl, rfl⟩
/-- Either limit at 0, the boundary. -/
theorem witness_InstallRefusesNonPositiveLimit : State.unconfigured.cfg = none ∧
    ({ rawOf t1 with limH := 0 } : RawCfg).limH ≤ 0 ∧ ({ rawOf t1 with limV := 0 } : RawCfg).limV ≤ 0 ∧
    0 < ({ rawOf t1 with limV := 0 } : RawCfg).limH ∧ (rawOf t1).mh.length = 4 ∧ (∀ row ∈ (rawOf t1).mh, row.length = 3) ∧
    (rawOf t1).mv.length = 2 ∧ ∀ row ∈ (rawOf t1).mv, row.length = 2 :=
  ⟨rfl, by decide +kernel, by decide +kernel, by decide +kernel, rfl, by decide, rfl, by decide⟩
/-- Three rows, a row of two, and a good `MH` beside a bad `MV`. -/
theorem witness_InstallRefusesWrongShape : State.unconfigured.cfg = none ∧
    ({ rawOf t1 with mh := [[1, 2, 3], [1, 2, 3], [1, 2, 3]] } : RawCfg).mh.length ≠ 4 ∧
    (∃ row ∈ ({ rawOf t1 with mh := [[1, 2, 3], [1, 2], [1, 2, 3], [1, 2, 3]] } : RawCfg).mh, row.length ≠ 3) ∧
    ((rawOf t1).mh.length = 4 ∧ (∀ row ∈ (rawOf t1).mh, row.length = 3) ∧
      ({ rawOf t1 with mv := [] } : RawCfg).mv.length ≠ 2) ∧
    ∃ row ∈ ({ rawOf t1 with mv := [[1, 2], [1, 2, 3]] } : RawCfg).mv, row.length ≠ 2 :=
  ⟨rfl, by decide, ⟨[1, 2], by simp, by decide⟩, ⟨rfl, by decide, by decide⟩, ⟨[1, 2, 3], by simp, by decide⟩⟩
theorem witness_SecondInstallIsRefused : (idle surgeCmd [] [.install (rawOf t1)]).cfg = some t1 ∧
    (idle surgeCmd [] [.install (rawOf t1)]).inputs = .install (rawOf t1) :: [] := ⟨rfl, rfl⟩
theorem witness_NoCycleWithoutConfiguration : State.unconfigured.cfg = none := rfl
theorem witness_OutOfPlaceOperationsAreRefused :
    ((running surgeCmd yFresh).cfg = some t1 ∧ (running surgeCmd yFresh).cyc = some yFresh ∧ yFresh.rh = none ∧
      yFresh.rv = none ∧ yFresh.h = none) ∧
    (({ yFull with v := none } : CycleValues).h = some ⟨[1, 2, 3, 4], rfl⟩ ∧ ({ yFull with v := none } : CycleValues).v = none) ∧
    (idle surgeCmd [] []).cfg = some t1 ∧ (idle surgeCmd [] []).cyc = none ∧
    (CycleValues.fresh .ok none [1, 2, 3, 4, 5]).status = .ok ∧ (CycleValues.fresh .ok none [1, 2, 3, 4, 5]).payload.length < 6 :=
  ⟨⟨rfl, rfl, rfl, rfl, rfl⟩, ⟨rfl, rfl⟩, rfl, rfl, rfl, by decide⟩
theorem witness_ReservedStepsAreRefused :
    (idle surgeCmd [] [.event (.sched 6)]).inputs = .event (.sched 6) :: [] ∧
    (idle surgeCmd [] [.event (.sched 7)]).inputs = .event (.sched 7) :: [] := ⟨rfl, rfl⟩

end Sys2Proof.Tests
end

namespace Sys2Proof.Proofs

open Sys2Proof.Machine

/-- Settles O1 (R22, R36, R141): field by field from the laws of the reset state; `Cmd.zero` is by definition the command
whose five fields are 0. -/
theorem resetIsNeutral : Obligations.ResetIsNeutral :=
  ⟨reset_cmd, reset_records, reset_cyc⟩

end Sys2Proof.Proofs

namespace Sys2Proof.Proofs

open Sys2Proof.Machine

/-- A step on a frame event sees the payload only through its classification (R60, R107). -/
theorem step_frame (s : State) (p : List Byte) (rest : List Input) :
    step { s with inputs := .event (.frame p) :: rest } = exec (decodeFrame p) { s with inputs := rest } := rfl

/-- The classification and the fields of a payload that is not short come from its first six bytes alone (R42, R60). -/
theorem decodeFrame_take_six {p : List Byte} (h : 6 ≤ p.length) : decodeFrame (p.take 6) = decodeFrame p := by
  obtain ⟨b0, b1, b2, b3, b4, b5, r, rfl⟩ := exists_six h
  rfl

/-- Settles O11 (R42): both steps execute the decoded payload, and the decoder reads only the first six bytes. -/
theorem extraBytesAreIgnored : Obligations.ExtraBytesAreIgnored := by
  intro s p rest h
  rw [step_frame, step_frame, decodeFrame_take_six h]

end Sys2Proof.Proofs

namespace Sys2Proof.Proofs

open Sys2Proof.Machine

/-- The second arm of R60: `off` is the least of the offsets 0..5 whose byte is 255. -/
theorem decodeFrame_of_firstTerm_eq_some {b0 b1 b2 b3 b4 b5 : Byte} (r : List Byte) {off : Nat}
    (ht : firstTerm [b0, b1, b2, b3, b4, b5] = some off) :
    decodeFrame (b0 :: b1 :: b2 :: b3 :: b4 :: b5 :: r) = .frameMalformed off := by
  simp only [decodeFrame, ht]

/-- The third arm of R60: no byte at the offsets 0..5 is 255. -/
theorem decodeFrame_of_firstTerm_eq_none {b0 b1 b2 b3 b4 b5 : Byte} (r : List Byte)
    (ht : firstTerm [b0, b1, b2, b3, b4, b5] = none) :
    decodeFrame (b0 :: b1 :: b2 :: b3 :: b4 :: b5 :: r) = .frameOk (Frame.ofBytes b0 b1 b2 b3 b4 b5) := by
  simp only [decodeFrame, ht]

/-- Settles O10 (R60): one lemma an arm. The hypotheses on the offsets below 6 say what `firstTerm` answers on the first
six bytes. -/
theorem frameEventIsClassified : Obligations.FrameEventIsClassified := by
  refine fun p => ⟨fun h => ?_, fun h off hoff hp hlt => ?_, fun h hall => ?_⟩
  · exact congrArg Except.ok (decodeFrame_short p h)
  · have ht : firstTerm (p.take 6) = some off := firstTerm_eq_some.mpr
      ⟨(List.getElem?_take_of_lt hoff).trans hp,
        fun k hk => (List.getElem?_take_of_lt (hk.trans hoff)).symm ▸ hlt k hk⟩
    obtain ⟨b0, b1, b2, b3, b4, b5, r, rfl⟩ := exists_six h
    exact congrArg Except.ok (decodeFrame_of_firstTerm_eq_some r ht)
  · have ht : firstTerm (p.take 6) = none := firstTerm_eq_none.mpr fun b hb hterm => by
      obtain ⟨k, hk, hbk⟩ := List.mem_take_iff_getElem.mp hb
      exact hall k (by omega) (List.getElem?_eq_some_iff.mpr ⟨by omega, hbk.trans hterm⟩)
    obtain ⟨b0, b1, b2, b3, b4, b5, r, rfl⟩ := exists_six h
    exact ⟨_, congrArg Except.ok (decodeFrame_of_firstTerm_eq_none r ht), bytes_ofBytes b0 b1 b2 b3 b4 b5⟩

end Sys2Proof.Proofs

namespace Sys2Proof.Proofs

open Sys2Proof.Machine

/-- A last byte other than 255 does not move the least offset whose byte is 255. -/
theorem firstTerm_append_of_ne {b : Byte} (hb : b ≠ terminator) (l : List Byte) :
    firstTerm (l ++ [b]) = firstTerm l := by
  induction l with
  | nil => exact if_neg hb
  | cons a l ih => simp only [List.cons_append, firstTerm, ih]

/-- FRAME.OK begins a cycle on the frame's bytes and runs the schedule (R107, R108). -/
theorem exec_frameOk (f : Frame) (s : State) :
    exec (.frameOk f) s = andThen (beginCycle .ok none f.bytes s) runSchedule := rfl

/-- Of its frame FRAME.OK uses only the command that DECODE reads: in a block that is not ready it is refused without
a look at the bytes, and no payload survives the cycle (R32). -/
theorem exec_frameOk_congr {f g : Frame} (h : ∀ c, decodeCmd c f.bytes = decodeCmd c g.bytes) (s : State) :
    exec (.frameOk f) s = exec (.frameOk g) s := by
  rw [exec_frameOk, exec_frameOk]
  cases hcfg : s.cfg with
  | none => simp only [beginCycle, hcfg]
  | some c =>
    cases hcyc : s.cyc with
    | some y => simp only [beginCycle, hcfg, hcyc]
    | none =>
      have hf := decodeCmd_bytes c f
      rw [beginCycle_runSchedule_ok ⟨hcfg, hcyc⟩ hf, beginCycle_runSchedule_ok ⟨hcfg, hcyc⟩ ((h c).symm.trans hf)]

/-- Sign bytes that agree in bits 4..0 give DECODE the same command (R58, R75). -/
theorem decodeCmd_congr_sign {b5 b5' : Byte} (hbits : ∀ k < 5, b5.getLsbD k = b5'.getLsbD k) (c : Cfg)
    (b0 b1 b2 b3 b4 : Byte) :
    decodeCmd c [b0, b1, b2, b3, b4, b5] = decodeCmd c [b0, b1, b2, b3, b4, b5'] := by
  have hbit : ∀ k < 5, bitOf b5 k = bitOf b5' k := hbits
  rw [decodeCmd_six, decodeCmd_six, hbit 0 (by decide), hbit 1 (by decide), hbit 2 (by decide), hbit 3 (by decide),
    hbit 4 (by decide)]

/-- Settles O16 (R58): two legal sign bytes leave the least offending offset to the five magnitudes, so both frames are
malformed there or both are OK; OK frames differ in their bits 7:5 alone, which DECODE does not read. -/
theorem highSignBitsAreIgnored : Obligations.HighSignBitsAreIgnored := by
  refine fun s rest b0 b1 b2 b3 b4 b5 b5' => ⟨fun h h' hbits => ?_, ?_⟩
  · rw [step_frame, step_frame]
    have hmag : firstTerm [b0, b1, b2, b3, b4, b5] = firstTerm [b0, b1, b2, b3, b4] :=
      firstTerm_append_of_ne h [b0, b1, b2, b3, b4]
    have hmag' : firstTerm [b0, b1, b2, b3, b4, b5'] = firstTerm [b0, b1, b2, b3, b4] :=
      firstTerm_append_of_ne h' [b0, b1, b2, b3, b4]
    cases ht : firstTerm [b0, b1, b2, b3, b4] with
    | some off =>
      rw [decodeFrame_of_firstTerm_eq_some [] (hmag.trans ht), decodeFrame_of_firstTerm_eq_some [] (hmag'.trans ht)]
    | none =>
      rw [decodeFrame_of_firstTerm_eq_none [] (hmag.trans ht), decodeFrame_of_firstTerm_eq_none [] (hmag'.trans ht)]
      refine exec_frameOk_congr (fun c => ?_) _
      simpa only [bytes_ofBytes] using decodeCmd_congr_sign hbits c b0 b1 b2 b3 b4
  · have hsome : firstTerm [b0, b1, b2, b3, b4, 255] ≠ none := fun hnone =>
      firstTerm_eq_none.mp hnone 255 (by simp) rfl
    obtain ⟨off, ht⟩ := Option.ne_none_iff_exists'.mp hsome
    exact ⟨off, firstTerm_lt ht, congrArg Except.ok (decodeFrame_of_firstTerm_eq_some [] ht)⟩

end Sys2Proof.Proofs

namespace Sys2Proof.Proofs

open Sys2Proof.Machine

/-- The command of a frame: the field map of R75, each field from its magnitude byte, its negate bit and its target. -/
def frameCmd (c : Cfg) (f : Frame) : Cmd where
  fx  := signedOperand f.surgeMag f.negSurge c.tSurge
  fy  := signedOperand f.swayMag f.negSway c.tSway
  tau := signedOperand f.yawMag f.negYaw c.tYaw
  fz  := signedOperand f.heaveMag f.negHeave c.tHeave
  tp  := signedOperand f.pitchMag f.negPitch c.tPitch

/-- FRAME.OK in a configured, idle block: the frame's command is written and its record is emitted (R108). -/
theorem exec_frameOk_ready {s : State} {c : Cfg} (h : s.Ready c) (f : Frame) :
    exec (.frameOk f) s =
      .next { s with cmd := frameCmd c f, records := s.records ++ [outOf c (frameCmd c f) .ok none] } :=
  beginCycle_runSchedule_ok h (decodeCmd_bytes c f)

/-- The magnitude 254 is `MAG_MAX`, so its quotient is the target itself (R73, R76). -/
theorem scale_magMax (t : Scalar) : scale 254 t = t := by
  have hnum : num 254 = magMax := rfl
  have hpos : magMax ≠ 0 := by decide
  rw [scale, hnum, mul_div_cancel_left₀ t hpos]

theorem scale_zero (t : Scalar) : scale 0 t = 0 := by
  have hnum : num 0 = 0 := rfl
  rw [scale, hnum, zero_mul, zero_div]

theorem signedOperand_of_eq_magMax {b : Byte} (hb : b = 254) (neg : Bool) (t : Scalar) :
    signedOperand b neg t = if neg then -t else t := by
  rw [hb, signedOperand, scale_magMax, applySign]

theorem signedOperand_of_eq_zero {b : Byte} (hb : b = 0) (neg : Bool) (t : Scalar) : signedOperand b neg t = 0 := by
  rw [hb, signedOperand, scale_zero, applySign, neg_zero, ite_self]

/-- Settles O14 (R76): FRAME.OK writes the frame's command, whose every field is a signed operand; at the magnitudes 254
and 0 the quotient is exact, with either sign. -/
theorem decodeEndPointsAreExact : Obligations.DecodeEndPointsAreExact :=
  fun _ _ f h => ⟨_, exec_frameOk_ready h f,
    fun hb => signedOperand_of_eq_magMax hb _ _, fun hb => signedOperand_of_eq_zero hb _ _,
    fun hb => signedOperand_of_eq_magMax hb _ _, fun hb => signedOperand_of_eq_zero hb _ _,
    fun hb => signedOperand_of_eq_magMax hb _ _, fun hb => signedOperand_of_eq_zero hb _ _,
    fun hb => signedOperand_of_eq_magMax hb _ _, fun hb => signedOperand_of_eq_zero hb _ _,
    fun hb => signedOperand_of_eq_magMax hb _ _, fun hb => signedOperand_of_eq_zero hb _ _⟩

end Sys2Proof.Proofs

namespace Sys2Proof.Proofs

open Sys2Proof.Machine

/-- A frame that is not well-formed has a byte 255, and its payload is malformed at the least offset of one (R57, R58, R60). -/
theorem decodeFrame_bytes_of_not_wf {f : Frame} (h : ¬ f.wf = true) :
    ∃ off < 6, decodeFrame f.bytes = .frameMalformed off := by
  rw [wf_iff_bytes, ← firstTerm_eq_none] at h
  obtain ⟨off, ht⟩ := Option.ne_none_iff_exists'.mp h
  exact ⟨off, firstTerm_lt ht, decodeFrame_of_firstTerm_eq_some [] ht⟩

theorem not_wf_of_signByte_eq_terminator {f : Frame} (h : f.signByte = terminator) : ¬ f.wf = true :=
  fun hwf => wf_iff_bytes.mp hwf f.signByte (by simp [Frame.bytes]) h

/-- A toggled negate bit negates the field (R74, R79). -/
theorem signedOperand_not (b : Byte) (neg : Bool) (t : Scalar) :
    signedOperand b (!neg) t = -signedOperand b neg t := by
  cases neg with
  | false => rfl
  | true => exact (neg_neg (scale b t)).symm

theorem frameCmd_toggle_negSurge (c : Cfg) (f : Frame) :
    frameCmd c { f with negSurge := !f.negSurge } = { frameCmd c f with fx := -(frameCmd c f).fx } := by
  simp only [frameCmd, signedOperand_not]

theorem frameCmd_toggle_negSway (c : Cfg) (f : Frame) :
    frameCmd c { f with negSway := !f.negSway } = { frameCmd c f with fy := -(frameCmd c f).fy } := by
  simp only [frameCmd, signedOperand_not]

theorem frameCmd_toggle_negPitch (c : Cfg) (f : Frame) :
    frameCmd c { f with negPitch := !f.negPitch } = { frameCmd c f with tp := -(frameCmd c f).tp } := by
  simp only [frameCmd, signedOperand_not]

theorem frameCmd_toggle_negYaw (c : Cfg) (f : Frame) :
    frameCmd c { f with negYaw := !f.negYaw } = { frameCmd c f with tau := -(frameCmd c f).tau } := by
  simp only [frameCmd, signedOperand_not]

theorem frameCmd_toggle_negHeave (c : Cfg) (f : Frame) :
    frameCmd c { f with negHeave := !f.negHeave } = { frameCmd c f with fz := -(frameCmd c f).fz } := by
  simp only [frameCmd, signedOperand_not]

/-- Bits 7:5 of the sign byte are in no field of the command (R58). -/
theorem frameCmd_ign (c : Cfg) (f : Frame) (g : BitVec 3) : frameCmd c { f with ign := g } = frameCmd c f := rfl

/-- A frame with the command `m` leaves `m` in the command register. -/
theorem exists_exec_frameOk_cmd {s : State} {c : Cfg} (h : s.Ready c) {f : Frame} {m : Cmd} (hm : frameCmd c f = m) :
    ∃ u, exec (.frameOk f) s = .next u ∧ u.cmd = m :=
  ⟨_, exec_frameOk_ready h f, hm⟩

/-- Settles O15 (R79): a sign byte of 255 is no well-formed frame's; in every other case FRAME.OK writes the frame's command,
in which a toggled negate bit negates its own field and bits 7:5 do not occur. -/
theorem eachSignBitNegatesOneField : Obligations.EachSignBitNegatesOneField := by
  refine ⟨fun f hsign => ?_, fun s c f h _ => ⟨_, exec_frameOk_ready h f, ?_, ?_, ?_, ?_, ?_, ?_⟩⟩
  · obtain ⟨off, hoff, hd⟩ := decodeFrame_bytes_of_not_wf (not_wf_of_signByte_eq_terminator hsign)
    exact ⟨off, hoff, congrArg Except.ok hd⟩
  · rintro _ rfl -
    exact exists_exec_frameOk_cmd h (frameCmd_toggle_negSurge c f)
  · rintro _ rfl -
    exact exists_exec_frameOk_cmd h (frameCmd_toggle_negSway c f)
  · rintro _ rfl -
    exact exists_exec_frameOk_cmd h (frameCmd_toggle_negPitch c f)
  · rintro _ rfl -
    exact exists_exec_frameOk_cmd h (frameCmd_toggle_negYaw c f)
  · rintro _ rfl -
    exact exists_exec_frameOk_cmd h (frameCmd_toggle_negHeave c f)
  · rintro _ g rfl -
    rw [exec_frameOk_ready h, frameCmd_ign]

end Sys2Proof.Proofs

namespace Sys2Proof.Proofs

open Sys2Proof.Machine

/-- DECODE in an OK cycle, on a payload that it reads as `m`, writes `m` and nothing else (R70). -/
theorem exec_decode_ok {s : State} {c : Cfg} {y : CycleValues} {m : Cmd} (h : s.Running c y) (hst : y.status = .ok)
    (hm : decodeCmd c y.payload = some m) : exec .decode s = .next { s with cmd := m } := by
  have hexec : exec .decode s = opDecode s := rfl
  rw [hexec, opDecode, inCycle_running h]
  simp only [hst, hm]

/-- A field written out from R73 and R74: the product, the quotient by 254, then the sign. -/
theorem signedOperand_eq (b : Byte) (neg : Bool) (t : Scalar) :
    signedOperand b neg t = if neg then -((b.toNat : Scalar) * t / 254) else (b.toNat : Scalar) * t / 254 := rfl

/-- Settles O12 (R70, R75): the payload has its six bytes, so DECODE reads a command, whose fields are signed operands. -/
theorem decodeWritesAllFiveFields : Obligations.DecodeWritesAllFiveFields := by
  intro s c y b0 b1 b2 b3 b4 b5 rest h hst hp
  have hm := decodeCmd_six c b0 b1 b2 b3 b4 b5 rest
  simp only [signedOperand_eq, bitOf] at hm
  exact exec_decode_ok h hst (hp ▸ hm)

end Sys2Proof.Proofs

namespace Sys2Proof.Proofs

open Sys2Proof.Machine

/-- Each horizontal lane is linear in the command (R89). -/
theorem mixH_combine_get (c : Cfg) (a b : Scalar) (m n : Cmd) (i : Fin 4) :
    (mixH c (Cmd.combine a b m n)).get i = a * (mixH c m).get i + b * (mixH c n).get i := by
  simp only [mixH_get, Cmd.combine]
  ring

/-- Each vertical lane is linear in the command (R89). -/
theorem mixV_combine_get (c : Cfg) (a b : Scalar) (m n : Cmd) (i : Fin 2) :
    (mixV c (Cmd.combine a b m n)).get i = a * (mixV c m).get i + b * (mixV c n).get i := by
  simp only [mixV_get, Cmd.combine]
  ring

/-- The zero command as a combination, which makes `matvec(M, 0) = 0` a case of linearity. -/
theorem combine_zero_zero (m n : Cmd) : Cmd.combine 0 0 m n = Cmd.zero := by
  simp [Cmd.combine, Cmd.zero]

/-- The negated command as a combination, which makes `matvec(M, -x) = -matvec(M, x)` a case of linearity. -/
theorem combine_neg_one_zero (m n : Cmd) :
    Cmd.combine (-1) 0 m n = ⟨-m.fx, -m.fy, -m.tau, -m.fz, -m.tp⟩ := by
  simp [Cmd.combine]

/-- Settles O21 (R89): the lanes are linear, and the zero and the negated command are the combinations with the
coefficients 0, 0 and -1, 0. -/
theorem mixersAreLinear : Obligations.MixersAreLinear := by
  refine fun c a b m n => ⟨mixH_combine_get c a b m n, mixV_combine_get c a b m n, fun i => ?_, fun i => ?_,
    fun i => ?_, fun i => ?_⟩
  · rw [← combine_zero_zero m n, mixH_combine_get, zero_mul, zero_mul, add_zero]
  · rw [← combine_zero_zero m n, mixV_combine_get, zero_mul, zero_mul, add_zero]
  · rw [← combine_neg_one_zero m n, mixH_combine_get, zero_mul, add_zero, neg_one_mul]
  · rw [← combine_neg_one_zero m n, mixV_combine_get, zero_mul, add_zero, neg_one_mul]

end Sys2Proof.Proofs

namespace Sys2Proof.Proofs

open Sys2Proof.Machine

/-- MIXH inside a cycle sets RH to the mixed command and nothing else (R87). -/
theorem exec_mixh_running {s : State} {c : Cfg} {y : CycleValues} (h : s.Running c y) :
    exec .mixh s = .next { s with cyc := some { y with rh := some (mixH c s.cmd) } } :=
  inCycle_running h _

/-- Settles O19 (R87): MIXH sets RH to `mixH` of the command, whose lanes are the products of `MH`'s rows with
(Fx, Fy, Tau). -/
theorem mixhProducesRawHorizontal : Obligations.MixhProducesRawHorizontal :=
  fun s c _ h => ⟨mixH c s.cmd, exec_mixh_running h, mixH_get c s.cmd⟩

end Sys2Proof.Proofs

namespace Sys2Proof.Proofs

open Sys2Proof.Machine

/-- MIXV inside a cycle sets RV to the mixed command and nothing else (R88). -/
theorem exec_mixv_running {s : State} {c : Cfg} {y : CycleValues} (h : s.Running c y) :
    exec .mixv s = .next { s with cyc := some { y with rv := some (mixV c s.cmd) } } :=
  inCycle_running h _

/-- Settles O20 (R88): MIXV sets RV to `mixV` of the command, whose lanes are the products of `MV`'s rows with
(Fz, Tp). -/
theorem mixvProducesRawVertical : Obligations.MixvProducesRawVertical :=
  fun s c _ h => ⟨mixV c s.cmd, exec_mixv_running h, mixV_get c s.cmd⟩

end Sys2Proof.Proofs

namespace Sys2Proof.Proofs

open Sys2Proof.Machine

/-- The max-norm is 0 exactly on the all-zero group (R96). -/
theorem maxAbs_eq_zero {f : List Scalar} : maxAbs f = 0 ↔ ∀ x ∈ f, x = 0 := by
  constructor
  · intro h0 x hx
    have hle : |x| ≤ 0 := h0 ▸ abs_le_maxAbs hx
    exact abs_nonpos_iff.mp hle
  · intro hall
    have hle : maxAbs f ≤ 0 := maxAbs_le le_rfl fun x hx => (abs_eq_zero.mpr (hall x hx)).le
    exact le_antisymm hle (maxAbs_nonneg f)

/-- Settles O24 (R96): the running maximum bounds every absolute value and is attained; the rest follows from these two. -/
theorem maxNormIsLargestAbsoluteValue : Obligations.MaxNormIsLargestAbsoluteValue := by
  refine fun f => ⟨fun x hx => abs_le_maxAbs hx, fun hf => ?_, maxAbs_nonneg f, maxAbs_eq_zero⟩
  obtain ⟨x, hx, he⟩ := maxAbs_attained hf
  exact ⟨x, hx, he.symm⟩

end Sys2Proof.Proofs

namespace Sys2Proof.Proofs

open Sys2Proof.Machine

/-- For a group with at least one lane, `maxAbs` is the max-norm of R96, lane by lane. -/
theorem isMaxNorm_maxAbs {n : Nat} (hn : 0 < n) (f : Vec Scalar n) : IsMaxNorm f (maxAbs f.toList) := by
  refine ⟨fun i => abs_le_maxAbs (f.get_mem i), ?_⟩
  have hne : f.toList ≠ [] := List.ne_nil_of_length_pos (f.length_toList.symm ▸ hn)
  obtain ⟨x, hx, he⟩ := maxAbs_attained hne
  obtain ⟨i, rfl⟩ := Vec.exists_get_of_mem hx
  exact ⟨i, he.symm⟩

/-- Above the limit every lane of `sat` is the lane times the one factor `L / M` (R95, R98). -/
theorem sat_get_of_exceeds {n : Nat} {f : Vec Scalar n} {l : Limit} (h : l.val < maxAbs f.toList) (i : Fin n) :
    (sat f l).get i = f.get i * (l.val / maxAbs f.toList) := by
  rw [sat_of_exceeds h, Vec.get_map]

/-- `sat` scales a group with at least one lane to its limit (R95, R97, R98). -/
theorem isScaled_sat {n : Nat} (hn : 0 < n) (f : Vec Scalar n) (l : Limit) : IsScaled f l.val (sat f l) :=
  ⟨maxAbs f.toList, isMaxNorm_maxAbs hn f, sat_get_of_exceeds, sat_of_within⟩

/-- SATH inside a cycle in which RH exists sets H to the scaled RH and nothing else (R101). -/
theorem exec_sath_running {s : State} {c : Cfg} {y : CycleValues} {rh : Vec Scalar 4} (h : s.Running c y)
    (hrh : y.rh = some rh) : exec .sath s = .next { s with cyc := some { y with h := some (satH c rh) } } := by
  have hexec : exec .sath s = opSath s := rfl
  rw [hexec, opSath, inCycle_running h]
  simp only [hrh]

/-- Settles O22 (R101): SATH sets H to `satH` of RH, which is `sat` with the horizontal limit. -/
theorem sathProducesScaledHorizontal : Obligations.SathProducesScaledHorizontal :=
  fun _ c _ rh h hrh => ⟨satH c rh, exec_sath_running h hrh, isScaled_sat (by decide) rh c.limH⟩

end Sys2Proof.Proofs

namespace Sys2Proof.Proofs

open Sys2Proof.Machine

/-- SATV inside a cycle in which RV exists sets V to the scaled RV and nothing else (R102). -/
theorem exec_satv_running {s : State} {c : Cfg} {y : CycleValues} {rv : Vec Scalar 2} (h : s.Running c y)
    (hrv : y.rv = some rv) : exec .satv s = .next { s with cyc := some { y with v := some (satV c rv) } } := by
  have hexec : exec .satv s = opSatv s := rfl
  rw [hexec, opSatv, inCycle_running h]
  simp only [hrv]

/-- Settles O23 (R102): SATV sets V to `satV` of RV, which is `sat` with the vertical limit. -/
theorem satvProducesScaledVertical : Obligations.SatvProducesScaledVertical :=
  fun _ c _ rv h hrv => ⟨satV c rv, exec_satv_running h hrv, isScaled_sat (by decide) rv c.limV⟩

end Sys2Proof.Proofs

namespace Sys2Proof.Proofs

open Sys2Proof.Machine

/-- Settles O26 (R99): a max-norm of 0 is below the limit, which is positive, so `sat` passes that group through as the
guard does. -/
theorem zeroGuardIsImplied : Obligations.ZeroGuardIsImplied := by
  intro n f l
  split
  case isTrue h0 =>
    have hwithin : maxAbs f.toList ≤ l.val := h0.trans_le l.property.le
    exact (sat_of_within hwithin).symm
  case isFalse => rfl

end Sys2Proof.Proofs

namespace Sys2Proof.Proofs

open Sys2Proof.Machine

/-- The search of R60 through the offsets below `n` answers the least one whose byte is 255, as `firstTerm` does. -/
theorem find?_terminator_eq_firstTerm (p : List Byte) (n : Nat) :
    (List.range n).find? (fun k => p[k]? == some terminator) = firstTerm (p.take n) := by
  induction p generalizing n with
  | nil => simp [firstTerm]
  | cons b bs ih =>
    cases n with
    | zero => rfl
    | succ n =>
      rw [List.range_succ_eq_map, List.take_succ_cons, firstTerm, ← ih n]
      by_cases hb : b = terminator
      · rw [if_pos hb, List.find?_cons_of_pos (by simp [hb])]
      · rw [if_neg hb, List.find?_cons_of_neg (by simpa using hb), List.find?_map]
        rfl

/-- The first arm of R60: the length is tested first. -/
theorem classify_short {p : List Byte} (h : p.length < 6) : classify p = .incomplete p.length :=
  if_pos h

theorem classify_of_firstTerm_eq_some {p : List Byte} (h : 6 ≤ p.length) {off : Nat}
    (ht : firstTerm (p.take 6) = some off) : classify p = .malformed off := by
  rw [classify, if_neg h.not_gt, find?_terminator_eq_firstTerm, ht]

theorem classify_of_firstTerm_eq_none {p : List Byte} (h : 6 ≤ p.length) (ht : firstTerm (p.take 6) = none) :
    classify p = .ok := by
  rw [classify, if_neg h.not_gt, find?_terminator_eq_firstTerm, ht]

/-- The spec's cycle of an INCOMPLETE payload keeps the command (R109). -/
theorem cycle_of_incomplete {p : List Byte} {n : Nat} (h : classify p = .incomplete n) (c : Cfg) (m : Cmd) :
    cycle c m p = (m, outOf c m .incomplete (some n)) := by
  simp only [cycle, h]

/-- The spec's cycle of a MALFORMED payload keeps the command (R110). -/
theorem cycle_of_malformed {p : List Byte} {off : Nat} (h : classify p = .malformed off) (c : Cfg) (m : Cmd) :
    cycle c m p = (m, outOf c m .malformed (some off)) := by
  simp only [cycle, h]

/-- The spec's cycle of an OK payload takes the command that DECODE reads (R108). -/
theorem cycle_of_ok {p : List Byte} (h : classify p = .ok) {c : Cfg} {m' : Cmd} (hm : decodeCmd c p = some m')
    (m : Cmd) : cycle c m p = (m', outOf c m' .ok none) := by
  simp only [cycle, h, hm, Option.getD_some]

/-- FRAME.INCOMPLETE in a configured, idle block: the retained command's record, and nothing else (R109). -/
theorem exec_frameIncomplete_ready {s : State} {c : Cfg} (h : s.Ready c) (n : Nat) :
    exec (.frameIncomplete n) s =
      .next { s with records := s.records ++ [outOf c s.cmd .incomplete (some n)] } :=
  beginCycle_runSchedule_skipped h (by decide) _ _

/-- FRAME.MALFORMED in a configured, idle block: the retained command's record, and nothing else (R110). -/
theorem exec_frameMalformed_ready {s : State} {c : Cfg} (h : s.Ready c) (off : Nat) :
    exec (.frameMalformed off) s =
      .next { s with records := s.records ++ [outOf c s.cmd .malformed (some off)] } :=
  beginCycle_runSchedule_skipped h (by decide) _ _

/-- The operation that a payload decodes to runs the spec's cycle (R107): one case for each class of R60. -/
theorem exec_decodeFrame_ready {s : State} {c : Cfg} (h : s.Ready c) (p : List Byte) :
    exec (decodeFrame p) s =
      .next { s with cmd := (cycle c s.cmd p).1, records := s.records ++ [(cycle c s.cmd p).2] } := by
  by_cases hlen : p.length < 6
  · rw [decodeFrame_short p hlen, exec_frameIncomplete_ready h, cycle_of_incomplete (classify_short hlen)]
  · have hsix : 6 ≤ p.length := not_lt.mp hlen
    obtain ⟨b0, b1, b2, b3, b4, b5, r, rfl⟩ := exists_six hsix
    cases ht : firstTerm [b0, b1, b2, b3, b4, b5] with
    | some off =>
      rw [decodeFrame_of_firstTerm_eq_some r ht, exec_frameMalformed_ready h,
        cycle_of_malformed (classify_of_firstTerm_eq_some hsix ht)]
    | none =>
      have hm := decodeCmd_six c b0 b1 b2 b3 b4 b5 r
      rw [decodeFrame_of_firstTerm_eq_none r ht, exec_frameOk_ready h,
        cycle_of_ok (classify_of_firstTerm_eq_none hsix ht) hm]
      rfl

/-- Settles O37 (R107): the step takes the frame event off the host's list, which leaves the block ready, and runs the
operation that the payload decodes to. -/
theorem stepIsTheSpecCycle : Obligations.StepIsTheSpecCycle := by
  rintro ⟨cmd, cfg, cyc, inputs, records⟩ c p rest h rfl
  exact exec_decodeFrame_ready (s := ⟨cmd, cfg, cyc, rest, records⟩) h p

end Sys2Proof.Proofs

namespace Sys2Proof.Proofs

open Sys2Proof.Machine

/-- The record of a command holds the six values of that command (R103, R107). -/
theorem isThrust_outOf (c : Cfg) (m : Cmd) (st : Status) (info : Option Nat) :
    IsThrust c m (outOf c m st info).h (outOf c m st info).v :=
  ⟨mixH c m, mixV c m, mixH_get c m, mixV_get c m, isScaled_sat (by decide) _ c.limH,
    isScaled_sat (by decide) _ c.limV⟩

/-- A group of zeros is within every limit, so `sat` passes it through (R104). -/
theorem sat_get_of_zeros {n : Nat} {f : Vec Scalar n} (hf : ∀ i, f.get i = 0) (l : Limit) (i : Fin n) :
    (sat f l).get i = 0 := by
  have hzero : maxAbs f.toList = 0 := maxAbs_eq_zero.mpr fun x hx => by
    obtain ⟨j, rfl⟩ := Vec.exists_get_of_mem hx
    exact hf j
  have hwithin : maxAbs f.toList ≤ l.val := hzero.trans_le l.property.le
  rw [sat_of_within hwithin, hf]

/-- The record of the zero command is a record of zeros (R89, R104). -/
theorem outOf_zero (c : Cfg) (st : Status) (info : Option Nat) :
    (∀ j, (outOf c Cmd.zero st info).h.get j = 0) ∧ ∀ j, (outOf c Cmd.zero st info).v.get j = 0 := by
  obtain ⟨-, -, hmixH, hmixV, -, -⟩ := mixersAreLinear c 0 0 Cmd.zero Cmd.zero
  exact ⟨sat_get_of_zeros hmixH c.limH, sat_get_of_zeros hmixV c.limV⟩

/-- The command of a frame is the field map of R75, written out. -/
theorem isCommandOf_frameCmd (c : Cfg) (f : Frame) : IsCommandOf c f (frameCmd c f) :=
  ⟨signedOperand_eq .., signedOperand_eq .., signedOperand_eq .., signedOperand_eq .., signedOperand_eq ..⟩

/-- A frame of zero magnitudes has the zero command, whatever its sign byte (R76). -/
theorem frameCmd_of_zero_magnitudes {f : Frame} (c : Cfg) (hsurge : f.surgeMag = 0) (hsway : f.swayMag = 0)
    (hpitch : f.pitchMag = 0) (hyaw : f.yawMag = 0) (hheave : f.heaveMag = 0) : frameCmd c f = Cmd.zero := by
  simp only [frameCmd, signedOperand_of_eq_zero hsurge, signedOperand_of_eq_zero hsway,
    signedOperand_of_eq_zero hpitch, signedOperand_of_eq_zero hyaw, signedOperand_of_eq_zero hheave, Cmd.zero]

/-- FRAME.OK on a frame whose command is already in the register changes nothing but the records (R108). -/
theorem exec_frameOk_repeated {s : State} {c : Cfg} {f : Frame} (h : s.Ready c) (hcmd : s.cmd = frameCmd c f) :
    exec (.frameOk f) s = .next { s with records := s.records ++ [outOf c (frameCmd c f) .ok none] } := by
  rw [exec_frameOk_ready h, ← hcmd]

/-- Settles O30 (R108): FRAME.OK writes the frame's command and emits its record; the block is then ready again, with that
command already in the register, so the same frame changes nothing but the records. -/
theorem frameOkRunsWholeCycle : Obligations.FrameOkRunsWholeCycle := by
  intro s c f h
  refine ⟨frameCmd c f, _, _, _, exec_frameOk_ready h f, rfl, isCommandOf_frameCmd c f,
    isThrust_outOf c (frameCmd c f) .ok none, exec_frameOk_repeated h rfl,
    fun hsurge hsway hpitch hyaw hheave => ?_⟩
  rw [frameCmd_of_zero_magnitudes c hsurge hsway hpitch hyaw hheave]
  exact ⟨rfl, outOf_zero c .ok none⟩

end Sys2Proof.Proofs

namespace Sys2Proof.Proofs

open Sys2Proof.Machine

/-- Settles O31 (R109): FRAME.INCOMPLETE emits the retained command's record, which is one of zeros for the zero
command. -/
theorem frameIncompleteKeepsCommand : Obligations.FrameIncompleteKeepsCommand := by
  refine fun s c n h => ⟨_, _, exec_frameIncomplete_ready h n, isThrust_outOf c s.cmd .incomplete (some n),
    fun hzero => ?_⟩
  rw [hzero]
  exact outOf_zero c .incomplete (some n)

end Sys2Proof.Proofs

namespace Sys2Proof.Proofs

open Sys2Proof.Machine

/-- Settles O32 (R110): FRAME.MALFORMED emits the retained command's record. -/
theorem frameMalformedKeepsCommand : Obligations.FrameMalformedKeepsCommand :=
  fun s c off h => ⟨_, _, exec_frameMalformed_ready h off, isThrust_outOf c s.cmd .malformed (some off)⟩

end Sys2Proof.Proofs

namespace Sys2Proof.Proofs

open Sys2Proof.Machine

/-- Settles O27 (R112): inside a cycle in which H and V exist, EMIT ends the cycle with their record, and `endCycle` is
the update that the statement names. -/
theorem emitHandsOverRecord : Obligations.EmitHandsOverRecord := by
  intro s c y h v hrun hh hv
  have hexec : exec .emit s = opEmit s := rfl
  rw [hexec, opEmit, inCycle_running hrun]
  simp only [hh, hv, endCycle]

end Sys2Proof.Proofs

namespace Sys2Proof.Proofs

open Sys2Proof.Machine

/-- A payload that is short, or holds a byte 255 among its first six, is in a class of R60 other than OK. -/
theorem classify_ne_ok {p : List Byte} (h : p.length < 6 ∨ ∃ k < 6, p[k]? = some 255) : classify p ≠ .ok := by
  by_cases hlen : p.length < 6
  · rw [classify_short hlen]
    exact FrameClass.noConfusion
  · obtain ⟨k, hk, hterm⟩ := h.resolve_left hlen
    cases ht : firstTerm (p.take 6) with
    | some off =>
      rw [classify_of_firstTerm_eq_some (not_lt.mp hlen) ht]
      exact FrameClass.noConfusion
    | none =>
      have hmem : terminator ∈ p.take 6 := List.mem_of_getElem? ((List.getElem?_take_of_lt hk).trans hterm)
      exact absurd rfl (firstTerm_eq_none.mp ht _ hmem)

/-- The spec's cycle of a payload that is not OK keeps the command and emits its record, with a status that is not OK
(R109, R110). -/
theorem exists_cycle_eq_retained {p : List Byte} (h : classify p ≠ .ok) (c : Cfg) (m : Cmd) :
    ∃ (st : Status) (info : Option Nat), st ≠ .ok ∧ cycle c m p = (m, outOf c m st info) := by
  cases hp : classify p with
  | ok => exact absurd hp h
  | incomplete n => exact ⟨.incomplete, some n, by decide, cycle_of_incomplete hp c m⟩
  | malformed off => exact ⟨.malformed, some off, by decide, cycle_of_malformed hp c m⟩

/-- A step on a frame that is not OK only takes the event and appends a record of the retained command (R109, R110). -/
theorem exists_step_eq_retained {s : State} {c : Cfg} {p : List Byte} {rest : List Input} (h : s.Ready c)
    (hin : s.inputs = .event (.frame p) :: rest) (hp : classify p ≠ .ok) :
    ∃ (st : Status) (info : Option Nat), st ≠ .ok ∧
      step s = .next { s with inputs := rest, records := s.records ++ [outOf c s.cmd st info] } := by
  obtain ⟨st, info, hst, hcycle⟩ := exists_cycle_eq_retained hp c s.cmd
  refine ⟨st, info, hst, ?_⟩
  rw [stepIsTheSpecCycle s c p rest h hin, hcycle]

/-- Settles O36 (R122), by induction on the payloads: a bad frame leaves the block ready with the same command, so the
frames after it emit the values of that same command. -/
theorem badFramesDoNotAccumulate : Obligations.BadFramesDoNotAccumulate := by
  intro s c ps rest h hin hbad
  induction ps generalizing s with
  | nil =>
    obtain rfl : s.inputs = rest := hin
    refine ⟨[], ?_, rfl, by simp⟩
    rw [List.append_nil]
    exact run_zero s
  | cons p ps ih =>
    obtain ⟨hp, hps⟩ := List.forall_mem_cons.mp hbad
    have hhead : s.inputs = .event (.frame p) :: (frameInputs ps ++ rest) := hin
    obtain ⟨st, info, hst, hstep⟩ := exists_step_eq_retained h hhead (classify_ne_ok hp)
    obtain ⟨os, hrun, hlen, hos⟩ := ih { s with
      inputs := frameInputs ps ++ rest, records := s.records ++ [outOf c s.cmd st info] } h rfl hps
    refine ⟨outOf c s.cmd st info :: os, ?_, congrArg (· + 1) hlen, List.forall_mem_cons.mpr ⟨⟨hst, rfl⟩, hos⟩⟩
    rw [List.length_cons, run_succ ps.length hstep, hrun, List.append_assoc, List.singleton_append]

end Sys2Proof.Proofs

namespace Sys2Proof.Proofs

open Sys2Proof.Machine

/-- The payload of a well-formed frame holds no byte 255, so it is in the third arm of R60 and gives the frame back. -/
theorem decodeFrame_bytes_of_wf {f : Frame} (h : f.wf = true) : decodeFrame f.bytes = .frameOk f := by
  have ht : firstTerm f.bytes = none := firstTerm_eq_none.mpr (wf_iff_bytes.mp h)
  exact (decodeFrame_of_firstTerm_eq_none [] ht).trans (congrArg Instr.frameOk (ofBytes_bytes f))

/-- The encoder's payload for FRAME.MALFORMED has its only byte 255 at the offset that is encoded. -/
theorem decodeFrame_encode_frameMalformed : ∀ off < 6,
    decodeFrame (List.replicate off 0 ++ terminator :: List.replicate (5 - off) 0) = .frameMalformed off := by
  decide

/-- Settles O6 (R56, R60, R61): one case for each class of payload; the schedule numbers are fixed. -/
theorem decodeOfEncodeIsInstruction : Obligations.DecodeOfEncodeIsInstruction := by
  intro i hwf
  cases i with
  | frameOk f => exact congrArg Except.ok (decodeFrame_bytes_of_wf hwf)
  | frameIncomplete n =>
    have hlen : (List.replicate n (0 : Byte)).length = n := List.length_replicate
    have hshort : (List.replicate n (0 : Byte)).length < 6 := hlen.trans_lt (of_decide_eq_true hwf)
    exact congrArg Except.ok ((decodeFrame_short _ hshort).trans (congrArg Instr.frameIncomplete hlen))
  | frameMalformed off => exact congrArg Except.ok (decodeFrame_encode_frameMalformed off (of_decide_eq_true hwf))
  | decode => rfl
  | mixh => rfl
  | mixv => rfl
  | sath => rfl
  | satv => rfl
  | emit => rfl

end Sys2Proof.Proofs

namespace Sys2Proof.Proofs

open Sys2Proof.Machine

/-- A table word of 48 bits is a payload of six bytes (R56). -/
theorem codeOfTableWord_wordOfBytes (f : Frame) : codeOfTableWord 48 (wordOfBytes f.bytes) = .frame f.bytes :=
  congrArg Code.frame (wordOfBytes_bytesOfWord f.bytes)

/-- Settles O7 (R56): the word is read back as the frame's own six bytes. -/
theorem frameWordDecodesToFrame : Obligations.FrameWordDecodesToFrame := by
  intro f hwf
  have hd : decode (.frame f.bytes) = .ok (.frameOk f) := congrArg Except.ok (decodeFrame_bytes_of_wf hwf)
  simp only [decodeTableWord, codeOfTableWord_wordOfBytes, hd]

end Sys2Proof.Proofs

namespace Sys2Proof.Proofs

open Sys2Proof.Machine

/-- Every payload is of one of the three classes of R60, with its operand in range (R57, R58). -/
theorem decodeFrame_wf (p : List Byte) : (decodeFrame p).wf = true := by
  by_cases hlen : p.length < 6
  · rw [decodeFrame_short p hlen]
    exact decide_eq_true hlen
  · obtain ⟨b0, b1, b2, b3, b4, b5, r, rfl⟩ := exists_six (not_lt.mp hlen)
    cases ht : firstTerm [b0, b1, b2, b3, b4, b5] with
    | some off =>
      rw [decodeFrame_of_firstTerm_eq_some r ht]
      exact decide_eq_true (firstTerm_lt ht)
    | none =>
      rw [decodeFrame_of_firstTerm_eq_none r ht]
      refine wf_iff_bytes.mpr ?_
      rw [bytes_ofBytes]
      exact firstTerm_eq_none.mp ht

/-- The six micro-operations have no operand, so all eight schedule numbers can be looked at (R61). -/
theorem decodeSched_wf : ∀ k : BitVec 3, ∀ i ∈ decodeSched k, i.wf = true := by
  decide

theorem decodeSched_eq_none : ∀ k : BitVec 3, decodeSched k = none ↔ k = 6 ∨ k = 7 := by
  decide

/-- Settles O8 (R57, R58, R60): a payload's operation is well-formed by its class, a schedule number's has no operand. -/
theorem decodedInstructionIsWellFormed : Obligations.DecodedInstructionIsWellFormed := by
  intro code i hd
  cases code with
  | frame p =>
    obtain rfl : decodeFrame p = i := Except.ok.inj hd
    exact decodeFrame_wf p
  | sched k =>
    cases hk : decodeSched k with
    | none => simp only [decode, hk, reduceCtorEq] at hd
    | some j =>
      simp only [decode, hk, Except.ok.injEq] at hd
      exact hd ▸ decodeSched_wf k j hk

/-- A rejected schedule number is one that names no operation, and the rejection names it (R61). -/
theorem decode_sched_eq_error {k : BitVec 3} {e : DecodeError} :
    decode (.sched k) = .error e ↔ decodeSched k = none ∧ e = .reservedStep k := by
  cases hk : decodeSched k with
  | none => simp [decode, hk, eq_comm]
  | some i => simp [decode, hk]

/-- Settles O9 (R60, R61): a payload is never rejected, a schedule number only where the operation map has no row. -/
theorem onlyReservedStepsAreRejected : Obligations.OnlyReservedStepsAreRejected := by
  intro code e
  cases code with
  | frame p => simp [decode]
  | sched k =>
    rw [decode_sched_eq_error, decodeSched_eq_none]
    constructor
    · rintro ⟨hk, he⟩
      exact ⟨k, rfl, he, hk⟩
    · rintro ⟨_, hcode, he, hk⟩
      cases hcode
      exact ⟨hk, he⟩

/-- Settles O5: the words are fixed, so each is decoded. -/
theorem writtenWordsDecode : Obligations.WrittenWordsDecode := by
  refine ⟨?_, ?_, ?_, ?_, ?_, ?_, ?_, ?_, ?_, ?_, ?_, ?_, ?_⟩ <;> decide

end Sys2Proof.Proofs

namespace Sys2Proof.Proofs

open Sys2Proof.Machine

/-- Settles O3 (R111): the step takes the move off the list and decodes it. -/
theorem stepRunsDecodedInstruction : Obligations.StepRunsDecodedInstruction := by
  intro s code rest i hin hd
  simp only [step, takeInput, hin, hd]

/-- Settles O4 (R138). -/
theorem idleStepChangesNothing : Obligations.IdleStepChangesNothing := by
  intro s hin
  simp only [step, takeInput, hin]

theorem step_install {s : State} {r : RawCfg} {rest : List Input} (hin : s.inputs = .install r :: rest) :
    step s = installCfg r { s with inputs := rest } := by
  simp only [step, takeInput, hin]

/-- Settles O46 (R140, R141, R144): the step is `resetEvent`, which leaves the configuration and the moves to come. -/
theorem resetEventRestoresFirstUse : Obligations.ResetEventRestoresFirstUse := by
  intro s rest hin
  simp only [step, takeInput, hin, resetEvent, Cmd.zero]

/-- Settles O55 (R61): the decoder rejects both numbers, and the step refuses what the decoder rejects. -/
theorem reservedStepsAreRefused : Obligations.ReservedStepsAreRefused := by
  intro s k rest hin hk
  have hd : decode (.sched k) = .error (.reservedStep k) :=
    decode_sched_eq_error.mpr ⟨(decodeSched_eq_none k).mpr hk, rfl⟩
  simp only [step, takeInput, hin, hd]

end Sys2Proof.Proofs

namespace Sys2Proof.Proofs

open Sys2Proof.Machine

/-- An operation of a frame event is a cycle begun and run, any other is a body that runs inside a cycle (R61, R107). -/
theorem exec_shape (i : Instr) (s : State) :
    (∃ st info p, exec i s = andThen (beginCycle st info p s) runSchedule) ∨ ∃ body, exec i s = inCycle s body := by
  cases i with
  | frameOk f => exact .inl ⟨.ok, none, f.bytes, rfl⟩
  | frameIncomplete n => exact .inl ⟨.incomplete, some n, [], rfl⟩
  | frameMalformed off => exact .inl ⟨.malformed, some off, [], rfl⟩
  | decode => exact .inr ⟨_, rfl⟩
  | mixh => exact .inr ⟨_, rfl⟩
  | mixv => exact .inr ⟨_, rfl⟩
  | sath => exact .inr ⟨_, rfl⟩
  | satv => exact .inr ⟨_, rfl⟩
  | emit => exact .inr ⟨_, rfl⟩

theorem beginCycle_unconfigured {s : State} (h : s.cfg = none) (st : Status) (info : Option Nat) (p : List Byte) :
    beginCycle st info p s = .refused .unconfigured := by
  simp only [beginCycle, h]

theorem beginCycle_running {s : State} {c : Cfg} {y : CycleValues} (h : s.Running c y) (st : Status)
    (info : Option Nat) (p : List Byte) : beginCycle st info p s = .refused .frameDuringCycle := by
  obtain ⟨hcfg, hcyc⟩ := h
  simp only [beginCycle, hcfg, hcyc]

theorem inCycle_unconfigured {s : State} (h : s.cfg = none)
    (body : Cfg → CycleValues → Host.Outcome State Fault Refusal) : inCycle s body = .refused .unconfigured := by
  simp only [inCycle, h]

theorem inCycle_ready {s : State} {c : Cfg} (h : s.Ready c)
    (body : Cfg → CycleValues → Host.Outcome State Fault Refusal) : inCycle s body = .refused .outsideCycle := by
  obtain ⟨hcfg, hcyc⟩ := h
  simp only [inCycle, hcfg, hcyc]

/-- Settles O52 (R145): neither a cycle nor a micro-operation gets past its own test of the configuration. -/
theorem noCycleWithoutConfiguration : Obligations.NoCycleWithoutConfiguration := by
  intro i s hcfg
  obtain ⟨st, info, p, hexec⟩ | ⟨body, hexec⟩ := exec_shape i s
  · rw [hexec, beginCycle_unconfigured hcfg, andThen_refused]
  · rw [hexec, inCycle_unconfigured hcfg]

end Sys2Proof.Proofs

namespace Sys2Proof.Proofs

open Sys2Proof.Machine

/-- A payload of fewer than six bytes has no sign byte, which DECODE reads first (R41). -/
theorem decodeCmd_short (c : Cfg) {p : List Byte} (h : p.length < 6) : decodeCmd c p = none := by
  have hsign : memRead p 5 = none := List.getElem?_eq_none (Nat.le_of_lt_succ h)
  simp only [decodeCmd, hsign]

/-- SATH before MIXH in its cycle (R101). -/
theorem exec_sath_absent {s : State} {c : Cfg} {y : CycleValues} (h : s.Running c y) (hrh : y.rh = none) :
    exec .sath s = .refused (.valueAbsent .rh) := by
  have hexec : exec .sath s = opSath s := rfl
  rw [hexec, opSath, inCycle_running h]
  simp only [hrh]

/-- SATV before MIXV in its cycle (R102). -/
theorem exec_satv_absent {s : State} {c : Cfg} {y : CycleValues} (h : s.Running c y) (hrv : y.rv = none) :
    exec .satv s = .refused (.valueAbsent .rv) := by
  have hexec : exec .satv s = opSatv s := rfl
  rw [hexec, opSatv, inCycle_running h]
  simp only [hrv]

/-- EMIT before SATH in its cycle (R112). -/
theorem exec_emit_absent_h {s : State} {c : Cfg} {y : CycleValues} (h : s.Running c y) (hh : y.h = none) :
    exec .emit s = .refused (.valueAbsent .h) := by
  have hexec : exec .emit s = opEmit s := rfl
  rw [hexec, opEmit, inCycle_running h]
  simp only [hh]

/-- EMIT after SATH but before SATV in its cycle (R112). -/
theorem exec_emit_absent_v {s : State} {c : Cfg} {y : CycleValues} (h : s.Running c y) {u : Vec Scalar 4}
    (hh : y.h = some u) (hv : y.v = none) : exec .emit s = .refused (.valueAbsent .v) := by
  have hexec : exec .emit s = opEmit s := rfl
  rw [hexec, opEmit, inCycle_running h]
  simp only [hh, hv]

/-- DECODE in an OK cycle on a payload of fewer than six bytes (R41). -/
theorem exec_decode_short {s : State} {c : Cfg} {y : CycleValues} (h : s.Running c y) (hst : y.status = .ok)
    (hlen : y.payload.length < 6) : exec .decode s = .refused (.payloadOffset y.payload.length) := by
  have hexec : exec .decode s = opDecode s := rfl
  rw [hexec, opDecode, inCycle_running h]
  simp only [hst, decodeCmd_short c hlen]

/-- Settles O13 (R81, R128). -/
theorem decodeIsSkippedUnlessOk : Obligations.DecodeIsSkippedUnlessOk := by
  intro s c y h hst
  have hexec : exec .decode s = opDecode s := rfl
  rw [hexec, opDecode, inCycle_running h]
  cases hy : y.status with
  | ok => exact absurd hy hst
  | incomplete => rfl
  | malformed => rfl

/-- Settles O53: inside a cycle no other begins, and a micro-operation needs the value it reads; outside one none runs. -/
theorem outOfPlaceOperationsAreRefused : Obligations.OutOfPlaceOperationsAreRefused := by
  refine fun s c hcfg => ⟨fun y hcyc => ?_, fun hcyc i hi => ?_⟩
  · have hrun : s.Running c y := ⟨hcfg, hcyc⟩
    have hframe : ∀ st info p, andThen (beginCycle st info p s) runSchedule = .refused .frameDuringCycle :=
      fun st info p => by rw [beginCycle_running hrun, andThen_refused]
    exact ⟨fun f => hframe .ok none f.bytes, fun n => hframe .incomplete (some n) [],
      fun off => hframe .malformed (some off) [], exec_sath_absent hrun, exec_satv_absent hrun,
      exec_emit_absent_h hrun, fun _ => exec_emit_absent_v hrun, exec_decode_short hrun⟩
  · have houtside := inCycle_ready (s := s) (c := c) ⟨hcfg, hcyc⟩
    rcases hi with rfl | rfl | rfl | rfl | rfl | rfl <;> exact houtside _

/-- The schedule of the frame operations is the six micro-operations one after the other (R61, R107). -/
theorem runSchedule_eq_microOperations : runSchedule = microOperations := rfl

/-- Settles O33 (R61, R107): each frame operation is its cycle begun and the schedule. -/
theorem frameRunsTheSchedule : Obligations.FrameRunsTheSchedule := by
  intro s
  rw [← runSchedule_eq_microOperations]
  exact ⟨fun _ => rfl, fun _ => rfl, fun _ => rfl⟩

/-- Settles O28 (R120): one code for each of the three statuses. -/
theorem statusCodesAreDistinct : Obligations.StatusCodesAreDistinct := by
  refine ⟨rfl, rfl, rfl, fun st => ?_⟩
  cases st with
  | ok => decide
  | incomplete => decide
  | malformed => decide

/-- Settles O29 (R116): on either side of 0 the test of `direction` and the absolute value of `duty` are decided. -/
theorem adapterSeesSignAndMagnitude : Obligations.AdapterSeesSignAndMagnitude :=
  fun _ => ⟨fun h => ⟨if_pos h, abs_of_nonneg h⟩, fun h => ⟨if_neg h.not_ge, abs_of_neg h⟩⟩

end Sys2Proof.Proofs

namespace Sys2Proof.Proofs

open Sys2Proof.Machine

/-- FRAME.OK answers a next state only in a configured, idle block, and then the one of `exec_frameOk_ready`. -/
theorem exec_frameOk_eq_next {f : Frame} {s t : State} (h : exec (.frameOk f) s = .next t) :
    ∃ c, s.Ready c ∧
      t = { s with cmd := frameCmd c f, records := s.records ++ [outOf c (frameCmd c f) .ok none] } := by
  obtain ⟨c, hready⟩ := beginCycle_andThen_eq_next h
  exact ⟨c, hready, Host.Outcome.next.inj (h.symm.trans (exec_frameOk_ready hready f))⟩

/-- The two frame operations that are not OK emit the retained command's record and change nothing else (R109, R110). -/
theorem exec_retaining_ready {i : Instr} (hi : i.isRetaining = true) {s : State} {c : Cfg} (h : s.Ready c) :
    ∃ (st : Status) (info : Option Nat),
      exec i s = .next { s with records := s.records ++ [outOf c s.cmd st info] } := by
  cases i with
  | frameIncomplete n => exact ⟨.incomplete, some n, exec_frameIncomplete_ready h n⟩
  | frameMalformed off => exact ⟨.malformed, some off, exec_frameMalformed_ready h off⟩
  | frameOk | decode | mixh | mixv | sath | satv | emit => cases hi

theorem ready_of_exec_retaining {i : Instr} (hi : i.isRetaining = true) {s t : State} (h : exec i s = .next t) :
    ∃ c, s.Ready c := by
  cases i with
  | frameIncomplete n => exact beginCycle_andThen_eq_next h
  | frameMalformed off => exact beginCycle_andThen_eq_next h
  | frameOk | decode | mixh | mixv | sath | satv | emit => cases hi

theorem exec_retaining_eq_next {i : Instr} (hi : i.isRetaining = true) {s t : State} (h : exec i s = .next t) :
    ∃ c st info, s.Ready c ∧ t = { s with records := s.records ++ [outOf c s.cmd st info] } := by
  obtain ⟨c, hready⟩ := ready_of_exec_retaining hi h
  obtain ⟨st, info, hexec⟩ := exec_retaining_ready hi hready
  exact ⟨c, st, info, hready, Host.Outcome.next.inj (h.symm.trans hexec)⟩

/-- DECODE writes the command register at most (R21, R81). -/
theorem exec_decode_eq_next {s t : State} (h : exec .decode s = .next t) : ∃ m, t = { s with cmd := m } := by
  have hop : opDecode s = .next t := h
  obtain ⟨c, y, -, hbody⟩ := inCycle_eq_next hop
  split at hbody
  case h_1 =>
    split at hbody
    case h_1 m _ => exact ⟨m, (Host.Outcome.next.inj hbody).symm⟩
    case h_2 => cases hbody
  case h_2 => exact ⟨s.cmd, (Host.Outcome.next.inj hbody).symm⟩
  case h_3 => exact ⟨s.cmd, (Host.Outcome.next.inj hbody).symm⟩

/-- MIXH writes a value of the cycle in progress and nothing else (R87). -/
theorem exec_mixh_eq_next {s t : State} (h : exec .mixh s = .next t) : ∃ y, t = { s with cyc := some y } := by
  have hop : opMixh s = .next t := h
  obtain ⟨c, y, -, hbody⟩ := inCycle_eq_next hop
  exact ⟨_, (Host.Outcome.next.inj hbody).symm⟩

/-- MIXV writes a value of the cycle in progress and nothing else (R88). -/
theorem exec_mixv_eq_next {s t : State} (h : exec .mixv s = .next t) : ∃ y, t = { s with cyc := some y } := by
  have hop : opMixv s = .next t := h
  obtain ⟨c, y, -, hbody⟩ := inCycle_eq_next hop
  exact ⟨_, (Host.Outcome.next.inj hbody).symm⟩

/-- SATH writes a value of the cycle in progress and nothing else (R101). -/
theorem exec_sath_eq_next {s t : State} (h : exec .sath s = .next t) : ∃ y, t = { s with cyc := some y } := by
  have hop : opSath s = .next t := h
  obtain ⟨c, y, -, hbody⟩ := inCycle_eq_next hop
  split at hbody
  case h_1 => exact ⟨_, (Host.Outcome.next.inj hbody).symm⟩
  case h_2 => cases hbody

/-- SATV writes a value of the cycle in progress and nothing else (R102). -/
theorem exec_satv_eq_next {s t : State} (h : exec .satv s = .next t) : ∃ y, t = { s with cyc := some y } := by
  have hop : opSatv s = .next t := h
  obtain ⟨c, y, -, hbody⟩ := inCycle_eq_next hop
  split at hbody
  case h_1 => exact ⟨_, (Host.Outcome.next.inj hbody).symm⟩
  case h_2 => cases hbody

/-- EMIT ends the cycle with one record (R112). -/
theorem exec_emit_eq_next {s t : State} (h : exec .emit s = .next t) : ∃ o, t = endCycle o s := by
  have hop : opEmit s = .next t := h
  obtain ⟨c, y, -, hbody⟩ := inCycle_eq_next hop
  split at hbody
  case h_1 => exact ⟨_, (Host.Outcome.next.inj hbody).symm⟩
  case h_2 => cases hbody
  case h_3 => cases hbody

/-- Everything an operation that answers a next state can have done: a whole OK cycle, a whole cycle of another class,
DECODE's write, the write of one value of the cycle in progress, or the end of that cycle. -/
theorem exec_cases {i : Instr} {s t : State} (h : exec i s = .next t) :
    (∃ f c, i = .frameOk f ∧ s.Ready c ∧
      t = { s with cmd := frameCmd c f, records := s.records ++ [outOf c (frameCmd c f) .ok none] }) ∨
    (∃ c st info, s.Ready c ∧ t = { s with records := s.records ++ [outOf c s.cmd st info] }) ∨
    (∃ m, i = .decode ∧ t = { s with cmd := m }) ∨
    (∃ y, t = { s with cyc := some y }) ∨
    (∃ o, t = endCycle o s) := by
  cases i with
  | frameOk f =>
    obtain ⟨c, hready, ht⟩ := exec_frameOk_eq_next h
    exact .inl ⟨f, c, rfl, hready, ht⟩
  | frameIncomplete n => exact .inr (.inl (exec_retaining_eq_next rfl h))
  | frameMalformed off => exact .inr (.inl (exec_retaining_eq_next rfl h))
  | decode =>
    obtain ⟨m, ht⟩ := exec_decode_eq_next h
    exact .inr (.inr (.inl ⟨m, rfl, ht⟩))
  | mixh => exact .inr (.inr (.inr (.inl (exec_mixh_eq_next h))))
  | mixv => exact .inr (.inr (.inr (.inl (exec_mixv_eq_next h))))
  | sath => exact .inr (.inr (.inr (.inl (exec_sath_eq_next h))))
  | satv => exact .inr (.inr (.inr (.inl (exec_satv_eq_next h))))
  | emit => exact .inr (.inr (.inr (.inr (exec_emit_eq_next h))))

/-- Settles O17 (R21): of everything an operation can do, only an OK cycle and DECODE's write touch the register. -/
theorem onlyDecodeWritesCommand : Obligations.OnlyDecodeWritesCommand := by
  intro i s t h hdecode hframe
  rcases exec_cases h with ⟨f, _, hi, -⟩ | ⟨_, _, _, -, rfl⟩ | ⟨_, hi, -⟩ | ⟨_, rfl⟩ | ⟨_, rfl⟩
  · exact absurd hi (hframe f)
  · rfl
  · exact absurd hi hdecode
  · rfl
  · rfl

theorem exec_cfg {i : Instr} {s t : State} (h : exec i s = .next t) : t.cfg = s.cfg := by
  rcases exec_cases h with ⟨_, _, -, -, rfl⟩ | ⟨_, _, _, -, rfl⟩ | ⟨_, -, rfl⟩ | ⟨_, rfl⟩ | ⟨_, rfl⟩ <;> rfl

theorem exec_inputs {i : Instr} {s t : State} (h : exec i s = .next t) : t.inputs = s.inputs := by
  rcases exec_cases h with ⟨_, _, -, -, rfl⟩ | ⟨_, _, _, -, rfl⟩ | ⟨_, -, rfl⟩ | ⟨_, rfl⟩ | ⟨_, rfl⟩ <;> rfl

/-- Settles O42 (R29, R146): no operation touches the configuration, and an installation is refused once there is one. -/
theorem configurationIsNeverWritten : Obligations.ConfigurationIsNeverWritten := by
  refine ⟨fun _ _ _ h => exec_cfg h, fun s t c hcfg h => ?_⟩
  rcases step_cases h with ⟨-, rfl⟩ | ⟨_, _, _, -, -, hexec⟩ | ⟨_, _, _, -, hnone, -, -⟩ | ⟨_, -, rfl⟩
  · exact hcfg
  · exact (exec_cfg hexec).trans hcfg
  · exact absurd (hcfg.symm.trans hnone) (Option.some_ne_none c)
  · exact hcfg

/-- Settles O43: a whole cycle and EMIT hand over one record each, DECODE and the other micro-operations none. -/
theorem execOnlyAppendsOneRecord : Obligations.ExecOnlyAppendsOneRecord := by
  refine fun i s t h => ⟨exec_inputs h, ?_⟩
  rcases exec_cases h with ⟨_, _, -, -, rfl⟩ | ⟨_, _, _, -, rfl⟩ | ⟨_, -, rfl⟩ | ⟨_, rfl⟩ | ⟨o, rfl⟩
  · exact .inr ⟨_, rfl⟩
  · exact .inr ⟨_, rfl⟩
  · exact .inl rfl
  · exact .inl rfl
  · exact .inr ⟨o, rfl⟩

/-- A step takes at most the host's next move (R111, R138). -/
theorem step_inputs {s t : State} (h : step s = .next t) : t.inputs = s.inputs.tail := by
  rcases step_cases h with ⟨hin, rfl⟩ | ⟨_, _, _, hin, -, hexec⟩ | ⟨_, _, _, hin, -, -, rfl⟩ | ⟨_, hin, rfl⟩
  · rw [hin, List.tail_nil]
  · rw [exec_inputs hexec, hin, List.tail_cons]
  · rw [hin, List.tail_cons]
    rfl
  · rw [hin, List.tail_cons]
    rfl

end Sys2Proof.Proofs

namespace Sys2Proof.Proofs

open Sys2Proof.Machine

/-- Every cycle of the spec emits the record of the command that it leaves (R107), in one of the three classes of R60: the
command of a legal frame, or the retained one with an info below 6. -/
theorem cycle_cases (c : Cfg) (m : Cmd) (p : List Byte) :
    (∃ f : Frame, f.wf = true ∧ cycle c m p = (frameCmd c f, outOf c (frameCmd c f) .ok none)) ∨
    (∃ n < 6, cycle c m p = (m, outOf c m .incomplete (some n))) ∨
    (∃ off < 6, cycle c m p = (m, outOf c m .malformed (some off))) := by
  by_cases hlen : p.length < 6
  · exact .inr (.inl ⟨p.length, hlen, cycle_of_incomplete (classify_short hlen) c m⟩)
  · have hsix : 6 ≤ p.length := not_lt.mp hlen
    obtain ⟨b0, b1, b2, b3, b4, b5, r, rfl⟩ := exists_six hsix
    cases ht : firstTerm [b0, b1, b2, b3, b4, b5] with
    | some off =>
      exact .inr (.inr ⟨off, firstTerm_lt ht, cycle_of_malformed (classify_of_firstTerm_eq_some hsix ht) c m⟩)
    | none =>
      have hwf : (Frame.ofBytes b0 b1 b2 b3 b4 b5).wf = true := by
        rw [wf_iff_bytes, bytes_ofBytes]
        exact firstTerm_eq_none.mp ht
      exact .inl ⟨_, hwf, cycle_of_ok (classify_of_firstTerm_eq_none hsix ht) (decodeCmd_six c b0 b1 b2 b3 b4 b5 r) m⟩

theorem cycle_values (c : Cfg) (m : Cmd) (p : List Byte) :
    ((cycle c m p).2.h, (cycle c m p).2.v) = thrust c (cycle c m p).1 := by
  rcases cycle_cases c m p with ⟨f, -, h⟩ | ⟨n, -, h⟩ | ⟨off, -, h⟩ <;> rw [h] <;> rfl

/-- A legal frame has no magnitude 255, so its command is in range under every configuration (R25, R57). -/
theorem frameCmd_inRange (c : Cfg) {f : Frame} (hwf : f.wf = true) : (frameCmd c f).InRange c := by
  obtain ⟨hsurge, hsway, hpitch, hyaw, hheave, -⟩ :
      f.surgeMag ≠ terminator ∧ f.swayMag ≠ terminator ∧ f.pitchMag ≠ terminator ∧ f.yawMag ≠ terminator ∧
        f.heaveMag ≠ terminator ∧ f.signByte ≠ terminator := by
    simpa only [Frame.bytes, List.forall_mem_cons, List.not_mem_nil, IsEmpty.forall_iff, implies_true, and_true]
      using wf_iff_bytes.mp hwf
  exact ⟨⟨_, _, hsurge, rfl⟩, ⟨_, _, hsway, rfl⟩, ⟨_, _, hyaw, rfl⟩, ⟨_, _, hheave, rfl⟩, ⟨_, _, hpitch, rfl⟩⟩

theorem cycle_inRange {c : Cfg} {m : Cmd} (hm : m.InRange c) (p : List Byte) : (cycle c m p).1.InRange c := by
  rcases cycle_cases c m p with ⟨f, hwf, h⟩ | ⟨n, -, h⟩ | ⟨off, -, h⟩ <;> rw [h]
  · exact frameCmd_inRange c hwf
  · exact hm
  · exact hm

theorem cycle_infoLegal (c : Cfg) (m : Cmd) (p : List Byte) : (cycle c m p).2.InfoLegal := by
  rcases cycle_cases c m p with ⟨f, -, h⟩ | ⟨n, hn, h⟩ | ⟨off, hoff, h⟩ <;> rw [h]
  · exact rfl
  · exact ⟨n, rfl, hn⟩
  · exact ⟨off, rfl, hoff⟩

/-- A record whose values are those of a command is bounded, whatever the command (R117). -/
theorem bounded_of_values {c : Cfg} {m : Cmd} {o : Out} (h : (o.h, o.v) = thrust c m) : o.Bounded c := by
  obtain ⟨hh, hv⟩ : o.h = satH c (mixH c m) ∧ o.v = satV c (mixV c m) := Prod.mk.inj h
  rw [Out.Bounded, hh, hv]
  exact ⟨fun x hx => (abs_le_maxAbs hx).trans (maxAbs_sat_le _ c.limH),
    fun x hx => (abs_le_maxAbs hx).trans (maxAbs_sat_le _ c.limV)⟩

/-- A block without a cycle behind it, in either phase, meets the invariant of a run (R141, R145). -/
theorem inv_of_neutral {s : State} (hcmd : s.cmd = Cmd.zero) (hcyc : s.cyc = none) (hrecords : s.records = [])
    (hmoves : ∀ x ∈ s.inputs, x.isHost = true) : s.Inv where
  quietUnconfigured _ := hrecords
  quietStart _ := hcmd
  idle := hcyc
  cmdInRange c _ := hcmd ▸ zero_inRange c
  recordsGood _ _ o ho := absurd (hrecords ▸ ho) List.not_mem_nil
  lastRecord _ o _ ho := absurd (hrecords ▸ ho) (by simp)
  hostMoves := hmoves

/-- Settles O2 (R141): the reset state is neutral, and nothing is presented. -/
theorem resetMeetsRunInvariant : Obligations.ResetMeetsRunInvariant :=
  inv_of_neutral reset_cmd reset_cyc reset_records (by simp)

/-- One whole cycle of the spec keeps the invariant of a run (R25, R114, R117). -/
theorem inv_cycle {s : State} {c : Cfg} (h : s.Inv) (hcfg : s.cfg = some c) (p : List Byte) {rest : List Input}
    (hmoves : ∀ x ∈ rest, x.isHost = true) :
    State.Inv { s with
      cmd := (cycle c s.cmd p).1, inputs := rest, records := s.records ++ [(cycle c s.cmd p).2] } where
  quietUnconfigured hnone := absurd (hcfg.symm.trans hnone) (Option.some_ne_none c)
  quietStart hnil := absurd hnil (List.append_ne_nil_of_right_ne_nil _ (List.cons_ne_nil _ _))
  idle := h.idle
  cmdInRange d hd := by
    obtain rfl : c = d := Option.some.inj (hcfg.symm.trans hd)
    exact cycle_inRange (h.cmdInRange c hcfg) p
  recordsGood d hd o ho := by
    obtain rfl : c = d := Option.some.inj (hcfg.symm.trans hd)
    rcases List.mem_append.mp ho with hold | hnew
    · exact h.recordsGood c hcfg o hold
    · obtain rfl := List.mem_singleton.mp hnew
      exact ⟨bounded_of_values (cycle_values c s.cmd p), cycle_infoLegal c s.cmd p⟩
  lastRecord d o hd ho := by
    obtain rfl : c = d := Option.some.inj (hcfg.symm.trans hd)
    obtain rfl : (cycle c s.cmd p).2 = o := Option.some.inj (List.getLast?_concat.symm.trans ho)
    exact cycle_values c s.cmd p
  hostMoves := hmoves

/-- Settles O39: by the host's move. A frame event runs a cycle of the spec, an installation and a reset leave a neutral
block, and a schedule number is no move of a run. -/
theorem stepKeepsRunInvariant : Obligations.StepKeepsRunInvariant := by
  intro s t hinv h
  have hmoves : ∀ x ∈ t.inputs, x.isHost = true := fun x hx =>
    hinv.hostMoves x (List.mem_of_mem_tail (step_inputs h ▸ hx))
  rcases step_cases h with ⟨-, rfl⟩ | ⟨code, rest, i, hin, hd, hexec⟩ | ⟨_, _, _, -, -, -, rfl⟩ | ⟨_, -, rfl⟩
  · exact hinv
  · cases code with
    | sched k => exact absurd (hinv.hostMoves (.event (.sched k)) (by simp [hin])) Bool.false_ne_true
    | frame p =>
      cases hcfg : s.cfg with
      | none =>
        have hrefused := noCycleWithoutConfiguration i { s with inputs := rest } hcfg
        cases hrefused.symm.trans hexec
      | some c =>
        obtain rfl := Host.Outcome.next.inj (h.symm.trans (stepIsTheSpecCycle s c p rest ⟨hcfg, hinv.idle⟩ hin))
        exact inv_cycle hinv hcfg p hmoves
  · exact inv_of_neutral rfl rfl rfl hmoves
  · exact inv_of_neutral rfl rfl rfl hmoves

/-- The invariant of a run holds after any number of steps. -/
theorem run_keeps_inv {s t : State} {n : Nat} (hinv : s.Inv) (h : Sys2Proof.core.run n s = .next t) : t.Inv := by
  induction n generalizing s with
  | zero =>
    obtain rfl := Host.Outcome.next.inj ((run_zero s).symm.trans h)
    exact hinv
  | succ n ih =>
    obtain ⟨u, hstep, hrun⟩ := run_succ_eq_next h
    exact ih (stepKeepsRunInvariant s u hinv hstep) hrun

/-- Settles O40 (R117): the bound is a clause of the invariant, and the reset event is the one that O46 writes out. -/
theorem everyRecordIsWithinLimits : Obligations.EveryRecordIsWithinLimits := by
  refine ⟨reset_records, fun s t rest hin h => ?_, fun s t n c hinv hrun hcfg o ho => ?_⟩
  · obtain rfl := Host.Outcome.next.inj (h.symm.trans (resetEventRestoresFirstUse s rest hin))
    rfl
  · obtain ⟨⟨hh, hv⟩, -⟩ := (run_keeps_inv hinv hrun).recordsGood c hcfg o ho
    exact ⟨fun i => hh _ (o.h.get_mem i), fun i => hv _ (o.v.get_mem i)⟩

end Sys2Proof.Proofs

namespace Sys2Proof.Proofs

open Sys2Proof.Machine

theorem abs_signedOperand (b : Byte) (neg : Bool) (t : Scalar) : |signedOperand b neg t| = |scale b t| := by
  cases neg with
  | false => rfl
  | true => exact abs_neg (scale b t)

/-- A byte other than 255 is at most `MAG_MAX`, so its quotient is at most the target (R73, R77). -/
theorem abs_le_of_fieldInRange {t x : Scalar} (h : FieldInRange t x) (ht : 0 ≤ t) : |x| ≤ t := by
  obtain ⟨b, neg, hb, rfl⟩ := h
  have hnat : b.toNat ≤ 254 := by
    have hne : b.toNat ≠ 255 := fun h255 => hb (BitVec.eq_of_toNat_eq h255)
    have hlt : b.toNat < 256 := b.isLt
    omega
  have hnum : num b ≤ magMax := Nat.cast_le.mpr hnat
  have hnonneg : 0 ≤ num b := Nat.cast_nonneg _
  have hpos : 0 < magMax := by decide
  rw [abs_signedOperand, scale, abs_of_nonneg (div_nonneg (mul_nonneg hnonneg ht) hpos.le), div_le_iff₀ hpos, mul_comm t]
  exact mul_le_mul_of_nonneg_right hnum ht

/-- Settles O18 (R25): the range is a clause of the invariant, which the step keeps. -/
theorem commandStaysInRange : Obligations.CommandStaysInRange := by
  intro s t c hinv h hcfg hsurge hsway hyaw hheave hpitch
  obtain ⟨hfx, hfy, htau, hfz, htp⟩ := (stepKeepsRunInvariant s t hinv h).cmdInRange c hcfg
  exact ⟨abs_le_of_fieldInRange hfx hsurge, abs_le_of_fieldInRange hfy hsway, abs_le_of_fieldInRange htau hyaw,
    abs_le_of_fieldInRange hfz hheave, abs_le_of_fieldInRange htp hpitch⟩

end Sys2Proof.Proofs

namespace Sys2Proof.Proofs

open Sys2Proof.Machine

/-- A move that presents a frame or a reset (R55, R140). -/
def FrameOrReset (x : Input) : Prop := x = .reset ∨ ∃ p, x = .event (.frame p)

/-- A configured, idle block answers a next state on a frame event, on a reset and on nothing (R107, R138, R140). -/
theorem exists_step_of_frameOrReset {s : State} {c : Cfg} (h : s.Ready c) (hmoves : ∀ x ∈ s.inputs, FrameOrReset x) :
    ∃ u, step s = .next u := by
  cases hin : s.inputs with
  | nil => exact ⟨s, idleStepChangesNothing s hin⟩
  | cons x rest =>
    rcases hmoves x (by simp [hin]) with rfl | ⟨p, rfl⟩
    · exact ⟨_, resetEventRestoresFirstUse s rest hin⟩
    · exact ⟨_, stepIsTheSpecCycle s c p rest h hin⟩

/-- Settles O41, by induction on the number of steps: a step leaves the invariant, the configuration and a part of the
moves. -/
theorem framesAndResetsNeverStopTheBlock : Obligations.FramesAndResetsNeverStopTheBlock := by
  intro s c n
  induction n generalizing s with
  | zero => exact fun _ _ _ => ⟨s, run_zero s⟩
  | succ n ih =>
    intro hinv hcfg hmoves
    obtain ⟨u, hstep⟩ := exists_step_of_frameOrReset ⟨hcfg, hinv.idle⟩ hmoves
    have hmoves' : ∀ x ∈ u.inputs, FrameOrReset x := fun x hx =>
      hmoves x (List.mem_of_mem_tail (step_inputs hstep ▸ hx))
    obtain ⟨t, hrun⟩ := ih u (stepKeepsRunInvariant s u hinv hstep) (configurationIsNeverWritten.2 s u c hcfg hstep) hmoves'
    exact ⟨t, (run_succ n hstep).trans hrun⟩

end Sys2Proof.Proofs

namespace Sys2Proof.Proofs

open Sys2Proof.Machine

theorem cycles_cons (c : Cfg) (m : Cmd) (p : List Byte) (ps : List (List Byte)) :
    cycles c m (p :: ps) =
      ((cycles c (cycle c m p).1 ps).1, (cycle c m p).2 :: (cycles c (cycle c m p).1 ps).2) := rfl

theorem length_cycles (c : Cfg) (m : Cmd) (ps : List (List Byte)) : (cycles c m ps).2.length = ps.length := by
  induction ps generalizing m with
  | nil => rfl
  | cons p ps ih => rw [cycles_cons, List.length_cons, ih, List.length_cons]

/-- Settles O38 (R153, R154), by induction on the payloads: a step on the first is its cycle and leaves the block ready
with that cycle's command. -/
theorem runIsTheSpecRun : Obligations.RunIsTheSpecRun := by
  refine fun s c ps rest h hin => ⟨length_cycles c s.cmd ps, ?_⟩
  induction ps generalizing s with
  | nil =>
    obtain rfl : s.inputs = rest := hin
    simp only [cycles, List.append_nil]
    exact run_zero s
  | cons p ps ih =>
    have hstep := stepIsTheSpecCycle s c p (frameInputs ps ++ rest) h hin
    have hrun := ih { s with
      cmd := (cycle c s.cmd p).1, inputs := frameInputs ps ++ rest, records := s.records ++ [(cycle c s.cmd p).2] } h rfl
    rw [cycles_cons, List.length_cons, run_succ ps.length hstep, hrun, List.append_assoc, List.singleton_append]

/-- Settles O47 (R144): after the reset event both blocks are the same block, and the run that follows is the spec's. -/
theorem resetForgetsHistory : Obligations.ResetForgetsHistory := by
  intro s s' c ps hcfg hcfg' hin hin'
  have hstep := resetEventRestoresFirstUse s (frameInputs ps) hin
  have hstep' := resetEventRestoresFirstUse s' (frameInputs ps) hin'
  rw [hcfg] at hstep
  rw [hcfg'] at hstep'
  obtain ⟨hlen, hrun⟩ := runIsTheSpecRun ⟨⟨0, 0, 0, 0, 0⟩, some c, none, frameInputs ps, []⟩ c ps [] ⟨rfl, rfl⟩
    (List.append_nil _).symm
  exact ⟨_, (run_succ _ hstep).trans hrun, (run_succ _ hstep').trans hrun, hlen, rfl⟩

end Sys2Proof.Proofs

namespace Sys2Proof.Proofs

open Sys2Proof.Machine

/-- A payload of at least six bytes without a byte 255 among the first six is OK (R60). -/
theorem classify_eq_ok {p : List Byte} (hsix : 6 ≤ p.length) (hall : ∀ k < 6, p[k]? ≠ some 255) : classify p = .ok := by
  refine classify_of_firstTerm_eq_none hsix (firstTerm_eq_none.mpr fun b hb hterm => ?_)
  obtain ⟨k, hk, hbk⟩ := List.mem_take_iff_getElem.mp hb
  exact hall k (by omega) (List.getElem?_eq_some_iff.mpr ⟨by omega, hbk.trans hterm⟩)

/-- An OK cycle does not look at the command before it (R80). -/
theorem cycle_congr_of_ok {p : List Byte} (hsix : 6 ≤ p.length) (hok : classify p = .ok) (c : Cfg) (m m' : Cmd) :
    cycle c m p = cycle c m' p := by
  obtain ⟨b0, b1, b2, b3, b4, b5, r, rfl⟩ := exists_six hsix
  have hm := decodeCmd_six c b0 b1 b2 b3 b4 b5 r
  rw [cycle_of_ok hok hm, cycle_of_ok hok hm]

/-- Settles O45 (R48, R80): both steps are the spec's cycle, which has no other argument than those named. -/
theorem cycleHasNoHiddenState : Obligations.CycleHasNoHiddenState := by
  intro s s' c p rest rest' h h' hin hin' hcmd
  have hcycle : cycle c s'.cmd p = cycle c s.cmd p := by
    rcases hcmd with heq | ⟨hsix, hall⟩
    · rw [heq]
    · exact cycle_congr_of_ok hsix (classify_eq_ok hsix hall) c s'.cmd s.cmd
  refine ⟨_, _, stepIsTheSpecCycle s c p rest h hin, ?_⟩
  rw [stepIsTheSpecCycle s' c p rest' h' hin', hcycle]

end Sys2Proof.Proofs

namespace Sys2Proof.Proofs

open Sys2Proof.Machine

/-- Settles O34 (R114): the newest record holds the values of the retained command, and before the first record that
command is neutral; both are clauses of the invariant. -/
theorem nonOkFrameRepeatsRecord : Obligations.NonOkFrameRepeatsRecord := by
  intro s c i hinv hcfg hi
  have hret : i.isRetaining = true := by
    rcases hi with ⟨n, rfl⟩ | ⟨off, rfl⟩ <;> rfl
  obtain ⟨st, info, hexec⟩ := exec_retaining_ready hret ⟨hcfg, hinv.idle⟩
  refine ⟨_, hexec, fun l hl => ?_, fun hnil => ?_⟩
  · obtain ⟨hh, hv⟩ := Prod.mk.inj (hinv.lastRecord c l hcfg hl)
    exact ⟨hh.symm, hv.symm⟩
  · rw [hinv.quietStart hnil]
    exact outOf_zero c st info

/-- Two vectors that agree lane by lane are the same vector. -/
theorem vec_eq_of_get {n : Nat} {u v : Vec Scalar n} (h : ∀ i, u.get i = v.get i) : u = v :=
  Vec.eq_of_toList (List.ext_getElem (u.length_toList.trans v.length_toList.symm) fun k hk _ =>
    h ⟨k, u.length_toList ▸ hk⟩)

/-- The record of the neutral command, written out. -/
theorem outOf_zero_eq (c : Cfg) (st : Status) (info : Option Nat) :
    outOf c Cmd.zero st info = ⟨st, info, ⟨[0, 0, 0, 0], rfl⟩, ⟨[0, 0], rfl⟩⟩ := by
  obtain ⟨hh, hv⟩ := outOf_zero c st info
  have hH : (outOf c Cmd.zero st info).h = ⟨[0, 0, 0, 0], rfl⟩ := vec_eq_of_get fun j => by
    rw [hh]
    fin_cases j <;> rfl
  have hV : (outOf c Cmd.zero st info).v = ⟨[0, 0], rfl⟩ := vec_eq_of_get fun j => by
    rw [hv]
    fin_cases j <;> rfl
  rw [← hH, ← hV]
  rfl

/-- A payload that is not OK has the status and the info of its class: its length, or its least offset of a byte 255. -/
theorem exists_cycle_eq_bad {p : List Byte} (hbad : p.length < 6 ∨ ∃ k < 6, p[k]? = some 255) (c : Cfg) (m : Cmd) :
    ∃ (st : Status) (info : Nat),
      (p.length < 6 → st = .incomplete ∧ info = p.length) ∧
      (6 ≤ p.length → st = .malformed ∧ p[info]? = some 255 ∧ ∀ k < info, p[k]? ≠ some 255) ∧
      cycle c m p = (m, outOf c m st (some info)) := by
  by_cases hlen : p.length < 6
  · exact ⟨.incomplete, p.length, fun _ => ⟨rfl, rfl⟩, fun h => absurd hlen h.not_gt,
      cycle_of_incomplete (classify_short hlen) c m⟩
  · have hsix : 6 ≤ p.length := not_lt.mp hlen
    cases ht : firstTerm (p.take 6) with
    | none => exact absurd (classify_of_firstTerm_eq_none hsix ht) (classify_ne_ok hbad)
    | some off =>
      have hoff : off < 6 := (firstTerm_lt ht).trans_le (List.length_take_le 6 p)
      obtain ⟨hterm, hleast⟩ := firstTerm_eq_some.mp ht
      refine ⟨.malformed, off, fun h => absurd h hlen, fun _ => ⟨rfl, ?_, fun k hk => ?_⟩,
        cycle_of_malformed (classify_of_firstTerm_eq_some hsix ht) c m⟩
      · exact (List.getElem?_take_of_lt hoff).symm.trans hterm
      · exact (List.getElem?_take_of_lt (hk.trans hoff)) ▸ hleast k hk

/-- Settles O35 (R143): the cycle is that of its class, on the neutral command. -/
theorem firstBadFrameEmitsZeros : Obligations.FirstBadFrameEmitsZeros := by
  intro c p rest hbad
  obtain ⟨st, info, hshort, hlong, hcycle⟩ := exists_cycle_eq_bad hbad c Cmd.zero
  refine ⟨st, info, hshort, hlong, ?_⟩
  have hstep := stepIsTheSpecCycle ⟨Cmd.zero, some c, none, .event (.frame p) :: rest, []⟩ c p rest ⟨rfl, rfl⟩ rfl
  rw [hcycle, outOf_zero_eq] at hstep
  exact hstep

end Sys2Proof.Proofs

namespace Sys2Proof.Proofs

open Sys2Proof.Machine

/-- The two paths of `sat` in one: every lane times the same positive factor, 1 where the group is within its limit
(R95, R98). -/
theorem exists_sat_factor {n : Nat} (f : Vec Scalar n) (l : Limit) :
    ∃ k : Scalar, 0 < k ∧ ∀ i, (sat f l).get i = f.get i * k := by
  by_cases h : l.val < maxAbs f.toList
  · exact ⟨l.val / maxAbs f.toList, div_pos l.property (l.property.trans h), sat_get_of_exceeds h⟩
  · refine ⟨1, one_pos, fun i => ?_⟩
    rw [sat_of_within (not_lt.mp h), mul_one]

/-- A group that is scaled ends up at its limit exactly (R98, R104). -/
theorem maxAbs_sat_of_exceeds {n : Nat} {f : Vec Scalar n} {l : Limit} (h : l.val < maxAbs f.toList) :
    maxAbs (sat f l).toList = l.val := by
  have hpos : 0 < maxAbs f.toList := l.property.trans h
  rw [sat_of_exceeds h, Vec.toList_map, maxAbs_map_mul _ (div_pos l.property hpos).le, mul_div_cancel₀ _ hpos.ne']

/-- Settles O25 (R104): the bound gives idempotence, and the one positive factor gives signs, zeros and ratios. -/
theorem scalerLaws : Obligations.ScalerLaws := by
  intro n f l
  obtain ⟨k, hk, hget⟩ := exists_sat_factor f l
  refine ⟨fun h => ⟨sat_get_of_exceeds h, maxAbs_sat_of_exceeds h⟩, sat_of_within, sat_of_within (maxAbs_sat_le f l),
    fun hzero => sat_get_of_zeros hzero l, fun i => (abs_le_maxAbs ((sat f l).get_mem i)).trans (maxAbs_sat_le f l),
    fun i => ?_, fun i j => ?_⟩
  · have hneg : f.get i * k < 0 ↔ f.get i < 0 := by
      rw [← neg_pos, ← neg_mul, mul_pos_iff_of_pos_right hk, neg_pos]
    rw [hget]
    exact ⟨⟨mul_pos_iff_of_pos_right hk, hneg⟩, mul_eq_zero_iff_right hk.ne'⟩
  · rw [hget, hget]
    ring

end Sys2Proof.Proofs

namespace Sys2Proof.Proofs

open Sys2Proof.Machine

/-- The horizontal values use MH, LIM_H and the horizontal fields of the command (R103). -/
theorem satH_mixH_congr {c c' : Cfg} {m m' : Cmd} (hmh : c.mh = c'.mh) (hlim : c.limH = c'.limH)
    (hcmd : m.horizontal = m'.horizontal) : satH c (mixH c m) = satH c' (mixH c' m') := by
  rw [satH, satH, mixH, mixH, hmh, hlim, hcmd]

/-- The vertical values use MV, LIM_V and the vertical fields of the command (R103). -/
theorem satV_mixV_congr {c c' : Cfg} {m m' : Cmd} (hmv : c.mv = c'.mv) (hlim : c.limV = c'.limV)
    (hcmd : m.vertical = m'.vertical) : satV c (mixV c m) = satV c' (mixV c' m') := by
  rw [satV, satV, mixV, mixV, hmv, hlim, hcmd]

theorem getLast?_map_h_outOf (os : List Out) (c : Cfg) (m : Cmd) (st : Status) (info : Option Nat) :
    (os ++ [outOf c m st info]).getLast?.map Out.h = some (satH c (mixH c m)) := by
  rw [List.getLast?_concat]
  rfl

theorem getLast?_map_v_outOf (os : List Out) (c : Cfg) (m : Cmd) (st : Status) (info : Option Nat) :
    (os ++ [outOf c m st info]).getLast?.map Out.v = some (satV c (mixV c m)) := by
  rw [List.getLast?_concat]
  rfl

/-- Settles O44 (R52, R103): the newest record is that of a command, whose horizontal and vertical fields come from the
frame's operands and targets of the same group, or from the retained command's. -/
theorem groupsDoNotInterfere : Obligations.GroupsDoNotInterfere := by
  refine fun s s' t t' c c' hcfg hcfg' => ⟨fun f f' h h' => ?_, fun i i' hi hi' h h' => ?_⟩
  · obtain ⟨d, ⟨hd, -⟩, rfl⟩ := exec_frameOk_eq_next h
    obtain ⟨d', ⟨hd', -⟩, rfl⟩ := exec_frameOk_eq_next h'
    obtain rfl : c = d := Option.some.inj (hcfg.symm.trans hd)
    obtain rfl : c' = d' := Option.some.inj (hcfg'.symm.trans hd')
    simp only [getLast?_map_h_outOf, getLast?_map_v_outOf]
    refine ⟨fun hmh hlim hsurge hsway hyaw hf0 hf1 hf3 hn0 hn1 hn3 => ?_,
      fun hmv hlim hheave hpitch hf4 hf2 hn4 hn2 => ?_⟩
    · refine congrArg some (satH_mixH_congr hmh hlim ?_)
      simp only [Cmd.horizontal, frameCmd, hsurge, hsway, hyaw, hf0, hf1, hf3, hn0, hn1, hn3]
    · refine congrArg some (satV_mixV_congr hmv hlim ?_)
      simp only [Cmd.vertical, frameCmd, hheave, hpitch, hf4, hf2, hn4, hn2]
  · obtain ⟨d, st, info, ⟨hd, -⟩, rfl⟩ := exec_retaining_eq_next hi h
    obtain ⟨d', st', info', ⟨hd', -⟩, rfl⟩ := exec_retaining_eq_next hi' h'
    obtain rfl : c = d := Option.some.inj (hcfg.symm.trans hd)
    obtain rfl : c' = d' := Option.some.inj (hcfg'.symm.trans hd')
    simp only [getLast?_map_h_outOf, getLast?_map_v_outOf]
    refine ⟨fun hmh hlim hfx hfy htau => ?_, fun hmv hlim hfz htp => ?_⟩
    · refine congrArg some (satH_mixH_congr hmh hlim ?_)
      simp only [Cmd.horizontal, hfx, hfy, htau]
    · refine congrArg some (satV_mixV_congr hmv hlim ?_)
      simp only [Cmd.vertical, hfz, htp]

end Sys2Proof.Proofs

namespace Sys2Proof.Proofs

open Sys2Proof.Machine

/-- The raw matrices of a shape: `n` rows of length `k` (R29, R125). -/
theorem exists_matrix_iff {n k : Nat} {l : List (List Scalar)} :
    (∃ m : Vec (Vec Scalar k) n, l = m.toList.map Vec.toList) ↔ l.length = n ∧ ∀ row ∈ l, row.length = k := by
  constructor
  · rintro ⟨m, rfl⟩
    refine ⟨(List.length_map _).trans m.length_toList, fun row hrow => ?_⟩
    obtain ⟨r, -, rfl⟩ := List.mem_map.mp hrow
    exact r.length_toList
  · rintro ⟨hn, hk⟩
    refine ⟨⟨l.pmap Vec.mk hk, by rw [List.length_pmap, hn]⟩, ?_⟩
    simp [List.map_pmap]

/-- The shape test of R125 fails on every other list of lists. -/
theorem matrix_eq_none {n k : Nat} {l : List (List Scalar)} :
    (l.mapM (Vec.ofList? k)).bind (Vec.ofList? n) = none ↔ ¬ (l.length = n ∧ ∀ row ∈ l, row.length = k) := by
  rw [← exists_matrix_iff, Option.eq_none_iff_forall_ne_some, not_exists]
  exact forall_congr' fun m => not_congr matrix_eq_some

/-- The raw forms of configurations are the raw configurations of the right shape with positive limits (R145 (2)). -/
theorem exists_rawOf_iff {r : RawCfg} :
    (∃ c, r = rawOf c) ↔
      r.mh.length = 4 ∧ (∀ row ∈ r.mh, row.length = 3) ∧ r.mv.length = 2 ∧ (∀ row ∈ r.mv, row.length = 2) ∧
        0 < r.limH ∧ 0 < r.limV := by
  constructor
  · rintro ⟨c, rfl⟩
    obtain ⟨hh, hh'⟩ := exists_matrix_iff.mp ⟨c.mh, rfl⟩
    obtain ⟨hv, hv'⟩ := exists_matrix_iff.mp ⟨c.mv, rfl⟩
    exact ⟨hh, hh', hv, hv', c.limH.property, c.limV.property⟩
  · rintro ⟨hh, hh', hv, hv', hlimH, hlimV⟩
    obtain ⟨mh, hmh⟩ := exists_matrix_iff.mpr ⟨hh, hh'⟩
    obtain ⟨mv, hmv⟩ := exists_matrix_iff.mpr ⟨hv, hv'⟩
    refine ⟨⟨mh, mv, ⟨r.limH, hlimH⟩, ⟨r.limV, hlimV⟩, r.tSurge, r.tSway, r.tYaw, r.tPitch, r.tHeave⟩, ?_⟩
    rw [rawOf, ← hmh, ← hmv]

theorem validate_shapeMh {r : RawCfg} (h : ¬ (r.mh.length = 4 ∧ ∀ row ∈ r.mh, row.length = 3)) :
    validate r = .error .shapeMh := by
  simp only [validate, matrix_eq_none.mpr h]

theorem validate_shapeMv {r : RawCfg} (hmh : r.mh.length = 4 ∧ ∀ row ∈ r.mh, row.length = 3)
    (h : ¬ (r.mv.length = 2 ∧ ∀ row ∈ r.mv, row.length = 2)) : validate r = .error .shapeMv := by
  obtain ⟨mh, hmh⟩ := exists_matrix_iff.mpr hmh
  simp only [validate, matrix_eq_some.mpr hmh, matrix_eq_none.mpr h]

theorem validate_limitH {r : RawCfg} (hmh : r.mh.length = 4 ∧ ∀ row ∈ r.mh, row.length = 3)
    (hmv : r.mv.length = 2 ∧ ∀ row ∈ r.mv, row.length = 2) (h : r.limH ≤ 0) : validate r = .error .limitH := by
  obtain ⟨mh, hmh⟩ := exists_matrix_iff.mpr hmh
  obtain ⟨mv, hmv⟩ := exists_matrix_iff.mpr hmv
  simp only [validate, matrix_eq_some.mpr hmh, matrix_eq_some.mpr hmv, dif_neg h.not_gt]

theorem validate_limitV {r : RawCfg} (hmh : r.mh.length = 4 ∧ ∀ row ∈ r.mh, row.length = 3)
    (hmv : r.mv.length = 2 ∧ ∀ row ∈ r.mv, row.length = 2) (hpos : 0 < r.limH) (h : r.limV ≤ 0) :
    validate r = .error .limitV := by
  obtain ⟨mh, hmh⟩ := exists_matrix_iff.mpr hmh
  obtain ⟨mv, hmv⟩ := exists_matrix_iff.mpr hmv
  simp only [validate, matrix_eq_some.mpr hmh, matrix_eq_some.mpr hmv, dif_pos hpos, dif_neg h.not_gt]

/-- A refused configuration stops an unconfigured block (R125, R126, R145). -/
theorem step_install_error {s : State} {r : RawCfg} {rest : List Input} {e : ConfigError} (hcfg : s.cfg = none)
    (hin : s.inputs = .install r :: rest) (hv : validate r = .error e) : step s = .fault (.configError e) := by
  rw [step_install hin]
  simp only [installCfg, hcfg, hv, raiseConfigError]

/-- A valid configuration is taken by an unconfigured block, which is then in the reset state (R145). -/
theorem step_install_rawOf {s : State} {c : Cfg} {rest : List Input} (hcfg : s.cfg = none)
    (hin : s.inputs = .install (rawOf c) :: rest) :
    step s = .next { cmd := ⟨0, 0, 0, 0, 0⟩, cfg := some c, cyc := none, inputs := rest, records := [] } := by
  have hv : validate (rawOf c) = .ok c := validate_eq_ok.mpr rfl
  rw [step_install hin]
  simp only [installCfg, hcfg, hv, resetEvent, Cmd.zero]

/-- An installation that answers a next state was one of a valid configuration (R145). -/
theorem exists_rawOf_of_step_install {s t : State} {r : RawCfg} {rest : List Input}
    (hin : s.inputs = .install r :: rest) (h : step s = .next t) : ∃ c, r = rawOf c := by
  rw [step_install hin] at h
  obtain ⟨c, -, hv, -⟩ := installCfg_eq_next h
  exact ⟨c, validate_eq_ok.mp hv⟩

/-- Settles O48 (R145): the installation answers a next state exactly on the raw forms of configurations, which are the
raw configurations of the right shape with positive limits. -/
theorem installTakesExactlyValidConfigurations : Obligations.InstallTakesExactlyValidConfigurations := by
  refine fun s r rest hcfg hin => ⟨fun t => ⟨fun h => ?_, ?_⟩, ?_⟩
  · obtain ⟨c, rfl⟩ := exists_rawOf_of_step_install hin h
    exact ⟨c, rfl, Host.Outcome.next.inj (h.symm.trans (step_install_rawOf hcfg hin))⟩
  · rintro ⟨c, rfl, rfl⟩
    exact step_install_rawOf hcfg hin
  · rw [← exists_rawOf_iff]
    constructor
    · rintro ⟨t, h⟩
      exact exists_rawOf_of_step_install hin h
    · rintro ⟨c, rfl⟩
      exact ⟨_, step_install_rawOf hcfg hin⟩

/-- Settles O49 (R126): a configuration that validation accepts has positive limits; on the right shapes the tests reach
the limits, LIM_H before LIM_V. -/
theorem installRefusesNonPositiveLimit : Obligations.InstallRefusesNonPositiveLimit := by
  refine fun s r rest hcfg hin hlim => ⟨?_, fun hh hh' hv hv' => ⟨fun h => ?_, fun hpos => ?_⟩⟩
  · cases hval : validate r with
    | error e => exact ⟨e, step_install_error hcfg hin hval⟩
    | ok c =>
      obtain ⟨-, -, -, -, hlimH, hlimV⟩ := exists_rawOf_iff.mp ⟨c, validate_eq_ok.mp hval⟩
      rcases hlim with h | h
      · exact absurd hlimH h.not_gt
      · exact absurd hlimV h.not_gt
  · exact step_install_error hcfg hin (validate_limitH ⟨hh, hh'⟩ ⟨hv, hv'⟩ h)
  · have h : r.limV ≤ 0 := hlim.resolve_left hpos.not_ge
    exact step_install_error hcfg hin (validate_limitV ⟨hh, hh'⟩ ⟨hv, hv'⟩ hpos h)

theorem not_shape_of_exists {n k : Nat} {l : List (List Scalar)} (h : l.length ≠ n ∨ ∃ row ∈ l, row.length ≠ k) :
    ¬ (l.length = n ∧ ∀ row ∈ l, row.length = k) := by
  rintro ⟨hn, hk⟩
  rcases h with h | ⟨row, hrow, h⟩
  · exact h hn
  · exact h (hk row hrow)

/-- Settles O50 (R125): the shape of MH is tested first and that of MV second. -/
theorem installRefusesWrongShape : Obligations.InstallRefusesWrongShape := by
  refine fun s r rest hcfg hin => ⟨fun h => ?_, fun hh hh' h => ?_⟩
  · exact step_install_error hcfg hin (validate_shapeMh (not_shape_of_exists h))
  · exact step_install_error hcfg hin (validate_shapeMv ⟨hh, hh'⟩ (not_shape_of_exists h))

/-- Settles O51 (R146): an installation looks first for a configuration that is already there. -/
theorem secondInstallIsRefused : Obligations.SecondInstallIsRefused := by
  intro s c r rest hcfg hin
  rw [step_install hin]
  simp only [installCfg, hcfg]

end Sys2Proof.Proofs

namespace Sys2Proof.Proofs

open Sys2Proof.Machine

/-- MIXH with the document's matrix, lane by lane (R11, R87). -/
theorem mixH_vehicle (m : Cmd) :
    mixH vehicle m =
      ⟨[1 / 4 * m.fx + 1 / 4 * m.fy + Config.mhTau 0 * m.tau, 1 / 4 * m.fx + -1 / 4 * m.fy + Config.mhTau 1 * m.tau,
        -1 / 4 * m.fx + 1 / 4 * m.fy + Config.mhTau 2 * m.tau, -1 / 4 * m.fx + -1 / 4 * m.fy + Config.mhTau 3 * m.tau],
        rfl⟩ := rfl

/-- MIXV with the document's matrix, lane by lane (R12, R88). -/
theorem mixV_vehicle (m : Cmd) :
    mixV vehicle m =
      ⟨[Config.mv 0 0 * m.fz + Config.mv 0 1 * m.tp, Config.mv 1 0 * m.fz + Config.mv 1 1 * m.tp], rfl⟩ := rfl

/-- The vertical group of the document's vehicle without heave and pitch, where no open entry enters. -/
theorem satV_mixV_vehicle {m : Cmd} (hfz : m.fz = 0) (htp : m.tp = 0) :
    satV vehicle (mixV vehicle m) = ⟨[0, 0], rfl⟩ := by
  have hzero : mixV vehicle m = ⟨[0, 0], rfl⟩ := by
    simp only [mixV_vehicle, hfz, htp, mul_zero, add_zero]
  have hmax : maxAbs [0, 0] = 0 := by decide
  rw [hzero]
  exact sat_of_within (hmax.trans_le vehicle.limV.property.le)

/-- The horizontal lanes of scenario W6 are within the limit of 255. -/
theorem satH_mixH_vehicle_w6 :
    satH vehicle (mixH vehicle ⟨1023 / 2, 0, 0, 0, 0⟩) = ⟨[1023 / 8, 1023 / 8, -1023 / 8, -1023 / 8], rfl⟩ := by
  have hmix : mixH vehicle ⟨1023 / 2, 0, 0, 0, 0⟩ = ⟨[1023 / 8, 1023 / 8, -1023 / 8, -1023 / 8], rfl⟩ := by
    rw [mixH_vehicle]
    norm_num
  have hwithin : maxAbs [1023 / 8, 1023 / 8, -1023 / 8, -1023 / 8] ≤ 255 := by decide +kernel
  rw [hmix]
  exact sat_of_within hwithin

/-- The horizontal lanes of scenario W7 are scaled from 1023 / 2 down to the limit of 255. -/
theorem satH_mixH_vehicle_w7 :
    satH vehicle (mixH vehicle ⟨1023, 1023, 0, 0, 0⟩) = ⟨[255, 0, 0, -255], rfl⟩ := by
  have hmix : mixH vehicle ⟨1023, 1023, 0, 0, 0⟩ = ⟨[1023 / 2, 0, 0, -1023 / 2], rfl⟩ := by
    rw [mixH_vehicle]
    norm_num
  have hlim : vehicle.limH.val = 255 := rfl
  have hmax : maxAbs [1023 / 2, 0, 0, -1023 / 2] = 1023 / 2 := by decide +kernel
  have hexceeds : vehicle.limH.val < maxAbs [1023 / 2, 0, 0, -1023 / 2] := by
    rw [hlim, hmax]
    norm_num
  rw [hmix, satH, sat_of_exceeds hexceeds, hlim, hmax]
  refine Vec.eq_of_toList ?_
  norm_num

/-- The step on a legal frame from the reset state, whose command is known (R107, R108). -/
theorem step_reset_frame {f : Frame} (hwf : f.wf = true) :
    step { State.reset with inputs := [.event (.frame f.bytes)] } =
      .next { State.reset with
        cmd := frameCmd vehicle f, records := [outOf vehicle (frameCmd vehicle f) .ok none] } := by
  rw [step_frame, decodeFrame_bytes_of_wf hwf]
  exact exec_frameOk_ready ⟨reset_cfg, reset_cyc⟩ f

/-- Settles O54 (W6, W7): each payload is a legal frame's; DECODE's command has no yaw, heave or pitch, so that no open
entry of the configuration enters the record. -/
theorem documentedScenariosFromReset : Obligations.DocumentedScenariosFromReset := by
  constructor
  · have hcmd : frameCmd vehicle ⟨127, 0, 0, 0, 0, false, false, false, false, false, 0⟩ = ⟨1023 / 2, 0, 0, 0, 0⟩ := by
      decide +kernel
    refine ⟨_, step_reset_frame (f := ⟨127, 0, 0, 0, 0, false, false, false, false, false, 0⟩) (by decide), hcmd, ?_⟩
    simp only [hcmd, outOf, thrust_fst, thrust_snd, satH_mixH_vehicle_w6, satV_mixV_vehicle]
  · have hcmd : frameCmd vehicle ⟨254, 254, 0, 0, 0, false, false, false, false, false, 0⟩ = ⟨1023, 1023, 0, 0, 0⟩ := by
      decide +kernel
    refine ⟨_, step_reset_frame (f := ⟨254, 254, 0, 0, 0, false, false, false, false, false, 0⟩) (by decide), hcmd, ?_⟩
    simp only [hcmd, outOf, thrust_fst, thrust_snd, satH_mixH_vehicle_w7, satV_mixV_vehicle]

end Sys2Proof.Proofs
